-- ==== Sys2Proof/Word.lean ====
section
/-! DEFINITION. The widths ECV256 works in (`00_scope.md` R7, R12): a 32-bit window word, a 256-bit
register value, one byte. All values are unsigned (R11). -/

namespace Sys2Proof

/-- A word of the register window, and a command word (R50, R80). -/
abbrev Word := BitVec 32

/-- The contents of one field/scalar register or one point coordinate (R7, R21). -/
abbrev U256 := BitVec 256

/-- One byte of the window's big-endian byte image (R52). -/
abbrev Byte := BitVec 8

end Sys2Proof
end

