-- ==== Sys2Proof/Syntax.lean ====
section
/-! DEFINITION. The fourteen commands of ECV256 (`30_encoding.md` R84), one constructor per row of the opcode
table. ECV256's instruction is the command: one 32-bit word written to CMD (`10_state.md` R37). -/

namespace Sys2Proof

/-- The modulus a field command works in: MOD = 0 selects `p` (suffix `.P`), MOD = 1 selects `n` (suffix `.N`);
no other MOD value reaches a command (R80, R110). -/
inductive Modulus where
  | modP
  | modN
  deriving DecidableEq, Repr

/-- A command with its operands in the field order D, A, B, C, E (R105). Every operand but the modulus is a
register number (R81): of an `F` register (legal 0 to 7) or a `P` register (legal 0 to 3), as the format says
(R83). Which numbers are legal is `Instr.wellFormed`. -/
inductive Instr where
  /-- FADD.m Fd, Fa, Fb (R120). -/
  | fadd (m : Modulus) (d a b : Nat)
  /-- FSUB.m Fd, Fa, Fb (R121). -/
  | fsub (m : Modulus) (d a b : Nat)
  /-- FMUL.m Fd, Fa, Fb (R122). -/
  | fmul (m : Modulus) (d a b : Nat)
  /-- FSQR.m Fd, Fa (R123). -/
  | fsqr (m : Modulus) (d a : Nat)
  /-- FINV.m Fd, Fa (R124). -/
  | finv (m : Modulus) (d a : Nat)
  /-- FRED.m Fd, Fa (R125). -/
  | fred (m : Modulus) (d a : Nat)
  /-- PADD Pd, Pa, Pb (R150). -/
  | padd (d a b : Nat)
  /-- PDBL Pd, Pa (R151). -/
  | pdbl (d a : Nat)
  /-- PMUL Pd, Fa, Pb: the scalar is `Fa`, the point `Pb` (R152). -/
  | pmul (d a b : Nat)
  /-- PCHK Pa (R153). -/
  | pchk (a : Nat)
  /-- PLDG Pd (R154). -/
  | pldg (d : Nat)
  /-- SIGCHK Fa, Fb: `r` and `s` (R182). -/
  | sigchk (a b : Nat)
  /-- KEYCHK Pa (R185). -/
  | keychk (a : Nat)
  /-- VERIFY Pa, Fb, Fc, Fe: the key `Q`, the digest `e`, `r` and `s` (R202). -/
  | verify (a b c e : Nat)
  deriving DecidableEq, Repr

end Sys2Proof
end

