-- ==== Sys2Proof/WellFormed.lean ====
section
/-! DEFINITION. Which commands can be spelled (`30_encoding.md` R83, R95 (d), (e)): every `F` register number is
0 to 7 and every `P` register number 0 to 3. R95 (c), MOD at most 1, holds of every `Modulus`. -/

namespace Sys2Proof

/-- `i` names a field/scalar register `F0` to `F7` (R81). -/
def isFIndex (i : Nat) : Bool := i < 8

/-- `i` names a point register `P0` to `P3` (R81). -/
def isPIndex (i : Nat) : Bool := i < 4

/-- Every register number of the command is legal for its format (R83). -/
def Instr.wellFormed : Instr → Bool
  | .fadd _ d a b => isFIndex d && isFIndex a && isFIndex b
  | .fsub _ d a b => isFIndex d && isFIndex a && isFIndex b
  | .fmul _ d a b => isFIndex d && isFIndex a && isFIndex b
  | .fsqr _ d a => isFIndex d && isFIndex a
  | .finv _ d a => isFIndex d && isFIndex a
  | .fred _ d a => isFIndex d && isFIndex a
  | .padd d a b => isPIndex d && isPIndex a && isPIndex b
  | .pdbl d a => isPIndex d && isPIndex a
  | .pmul d a b => isPIndex d && isFIndex a && isPIndex b
  | .pchk a => isPIndex a
  | .pldg d => isPIndex d
  | .sigchk a b => isFIndex a && isFIndex b
  | .keychk a => isPIndex a
  | .verify a b c e => isPIndex a && isFIndex b && isFIndex c && isFIndex e

/-- The command is well-formed. -/
abbrev WellFormed (i : Instr) : Prop := i.wellFormed = true

end Sys2Proof
end

