-- ==== Sys2Proof/Decode.lean ====
section
/-! DEFINITION. The command word: its seven fields (`30_encoding.md` R80), the decoder, total on every 32-bit
word and rejecting by name (R82, R83, R95), the encoder, and the opcode map as match and mask (R84). -/

namespace Sys2Proof

/-- Why a word spells no command: the five conditions (a) to (e) of R95. All five complete as `IllegalCommand`. -/
inductive DecodeError where
  /-- (a) OPC is not one of the fourteen values. -/
  | unknownOpc
  /-- (b) A must-be-zero field is non-zero. -/
  | unusedFieldNonzero
  /-- (c) MOD > 1 in FMT_F3 or FMT_F2. -/
  | modOutOfRange
  /-- (d) An `F` index field is greater than 7. -/
  | fIndexOutOfRange
  /-- (e) A `P` index field is greater than 3. -/
  | pIndexOutOfRange
  deriving DecidableEq, Repr

/-- The seven fields of a command word, most significant first (R80). -/
structure Fields where
  opc : BitVec 8
  mod : BitVec 4
  d : BitVec 4
  a : BitVec 4
  b : BitVec 4
  c : BitVec 4
  e : BitVec 4
  deriving DecidableEq, Repr

/-- The fields of a word: OPC 31:24, MOD 23:20, D 19:16, A 15:12, B 11:8, C 7:4, E 3:0 (R80). -/
def fieldsOfWord (w : Word) : Fields where
  opc := w.extractLsb' 24 8
  mod := w.extractLsb' 20 4
  d := w.extractLsb' 16 4
  a := w.extractLsb' 12 4
  b := w.extractLsb' 8 4
  c := w.extractLsb' 4 4
  e := w.extractLsb' 0 4

/-- The word with the given fields, `OO M D A B C E` in hexadecimal (R80). -/
def wordOfFields (fl : Fields) : Word :=
  fl.opc ++ fl.mod ++ fl.d ++ fl.a ++ fl.b ++ fl.c ++ fl.e

/-! ### Decoding one field -/

/-- A field the format does not use must be zero (R82). -/
def zeroField (x : BitVec 4) : Except DecodeError Unit :=
  if x = 0#4 then .ok () else .error .unusedFieldNonzero

/-- MOD of a field command: 0 is `p`, 1 is `n` (R80, R110). -/
def modField (x : BitVec 4) : Except DecodeError Modulus :=
  if x = 0#4 then .ok .modP else if x = 1#4 then .ok .modN else .error .modOutOfRange

/-- An index field naming an `F` register, read as an unsigned number (R81). -/
def fField (x : BitVec 4) : Except DecodeError Nat :=
  if isFIndex x.toNat then .ok x.toNat else .error .fIndexOutOfRange

/-- An index field naming a `P` register (R81). -/
def pField (x : BitVec 4) : Except DecodeError Nat :=
  if isPIndex x.toNat then .ok x.toNat else .error .pIndexOutOfRange

/-! ### The nine formats (R83) -/

/-- FMT_F3: `m Fd Fa Fb 0 0`. -/
def decodeF3 (mk : Modulus → Nat → Nat → Nat → Instr) (fl : Fields) : Except DecodeError Instr := do
  let m ← modField fl.mod
  let d ← fField fl.d
  let a ← fField fl.a
  let b ← fField fl.b
  zeroField fl.c
  zeroField fl.e
  return mk m d a b

/-- FMT_F2: `m Fd Fa 0 0 0`. -/
def decodeF2 (mk : Modulus → Nat → Nat → Instr) (fl : Fields) : Except DecodeError Instr := do
  let m ← modField fl.mod
  let d ← fField fl.d
  let a ← fField fl.a
  zeroField fl.b
  zeroField fl.c
  zeroField fl.e
  return mk m d a

/-- FMT_P3: `0 Pd Pa Pb 0 0`. -/
def decodeP3 (mk : Nat → Nat → Nat → Instr) (fl : Fields) : Except DecodeError Instr := do
  zeroField fl.mod
  let d ← pField fl.d
  let a ← pField fl.a
  let b ← pField fl.b
  zeroField fl.c
  zeroField fl.e
  return mk d a b

/-- FMT_P2: `0 Pd Pa 0 0 0`. -/
def decodeP2 (mk : Nat → Nat → Instr) (fl : Fields) : Except DecodeError Instr := do
  zeroField fl.mod
  let d ← pField fl.d
  let a ← pField fl.a
  zeroField fl.b
  zeroField fl.c
  zeroField fl.e
  return mk d a

/-- FMT_PM: `0 Pd Fa Pb 0 0`. -/
def decodePM (mk : Nat → Nat → Nat → Instr) (fl : Fields) : Except DecodeError Instr := do
  zeroField fl.mod
  let d ← pField fl.d
  let a ← fField fl.a
  let b ← pField fl.b
  zeroField fl.c
  zeroField fl.e
  return mk d a b

/-- FMT_P1S: `0 0 Pa 0 0 0`. -/
def decodeP1S (mk : Nat → Instr) (fl : Fields) : Except DecodeError Instr := do
  zeroField fl.mod
  zeroField fl.d
  let a ← pField fl.a
  zeroField fl.b
  zeroField fl.c
  zeroField fl.e
  return mk a

/-- FMT_P1D: `0 Pd 0 0 0 0`. -/
def decodeP1D (mk : Nat → Instr) (fl : Fields) : Except DecodeError Instr := do
  zeroField fl.mod
  let d ← pField fl.d
  zeroField fl.a
  zeroField fl.b
  zeroField fl.c
  zeroField fl.e
  return mk d

/-- FMT_S2: `0 0 Fa Fb 0 0`. -/
def decodeS2 (mk : Nat → Nat → Instr) (fl : Fields) : Except DecodeError Instr := do
  zeroField fl.mod
  zeroField fl.d
  let a ← fField fl.a
  let b ← fField fl.b
  zeroField fl.c
  zeroField fl.e
  return mk a b

/-- FMT_V: `0 0 Pa Fb Fc Fe`. -/
def decodeV (mk : Nat → Nat → Nat → Nat → Instr) (fl : Fields) : Except DecodeError Instr := do
  zeroField fl.mod
  zeroField fl.d
  let a ← pField fl.a
  let b ← fField fl.b
  let c ← fField fl.c
  let e ← fField fl.e
  return mk a b c e

/-- The command the fields spell, by OPC (R84), or the reason they spell none (R95). -/
def decodeFields (fl : Fields) : Except DecodeError Instr :=
  match fl.opc with
  | 0x10#8 => decodeF3 .fadd fl
  | 0x11#8 => decodeF3 .fsub fl
  | 0x12#8 => decodeF3 .fmul fl
  | 0x13#8 => decodeF2 .fsqr fl
  | 0x14#8 => decodeF2 .finv fl
  | 0x15#8 => decodeF2 .fred fl
  | 0x20#8 => decodeP3 .padd fl
  | 0x21#8 => decodeP2 .pdbl fl
  | 0x22#8 => decodePM .pmul fl
  | 0x23#8 => decodeP1S .pchk fl
  | 0x24#8 => decodeP1D .pldg fl
  | 0x30#8 => decodeS2 .sigchk fl
  | 0x31#8 => decodeP1S .keychk fl
  | 0x40#8 => decodeV .verify fl
  | _ => .error .unknownOpc

/-- The decoder: every 32-bit word is exactly one command or illegal (R95). -/
def decode (w : Word) : Except DecodeError Instr := decodeFields (fieldsOfWord w)

/-- What the decoder reads from a table word of `nbits` bits (32 for every row). -/
def decodeTableWord (nbits w : Nat) : Option Instr :=
  (decode (BitVec.ofNat 32 (w % 2 ^ nbits))).toOption

/-! ### The encoder -/

/-- The MOD field of a modulus (R80). -/
def modBits : Modulus → BitVec 4
  | .modP => 0#4
  | .modN => 1#4

/-- The index field of a register number (R81). -/
def indexBits (i : Nat) : BitVec 4 := BitVec.ofNat 4 i

/-- The OPC of a command (R84). -/
def opcOf : Instr → BitVec 8
  | .fadd .. => 0x10#8
  | .fsub .. => 0x11#8
  | .fmul .. => 0x12#8
  | .fsqr .. => 0x13#8
  | .finv .. => 0x14#8
  | .fred .. => 0x15#8
  | .padd .. => 0x20#8
  | .pdbl .. => 0x21#8
  | .pmul .. => 0x22#8
  | .pchk .. => 0x23#8
  | .pldg .. => 0x24#8
  | .sigchk .. => 0x30#8
  | .keychk .. => 0x31#8
  | .verify .. => 0x40#8

/-- The fields of a command, laid out by its format (R83). -/
def fieldsOf (i : Instr) : Fields :=
  match i with
  | .fadd m d a b => ⟨opcOf i, modBits m, indexBits d, indexBits a, indexBits b, 0#4, 0#4⟩
  | .fsub m d a b => ⟨opcOf i, modBits m, indexBits d, indexBits a, indexBits b, 0#4, 0#4⟩
  | .fmul m d a b => ⟨opcOf i, modBits m, indexBits d, indexBits a, indexBits b, 0#4, 0#4⟩
  | .fsqr m d a => ⟨opcOf i, modBits m, indexBits d, indexBits a, 0#4, 0#4, 0#4⟩
  | .finv m d a => ⟨opcOf i, modBits m, indexBits d, indexBits a, 0#4, 0#4, 0#4⟩
  | .fred m d a => ⟨opcOf i, modBits m, indexBits d, indexBits a, 0#4, 0#4, 0#4⟩
  | .padd d a b => ⟨opcOf i, 0#4, indexBits d, indexBits a, indexBits b, 0#4, 0#4⟩
  | .pdbl d a => ⟨opcOf i, 0#4, indexBits d, indexBits a, 0#4, 0#4, 0#4⟩
  | .pmul d a b => ⟨opcOf i, 0#4, indexBits d, indexBits a, indexBits b, 0#4, 0#4⟩
  | .pchk a => ⟨opcOf i, 0#4, 0#4, indexBits a, 0#4, 0#4, 0#4⟩
  | .pldg d => ⟨opcOf i, 0#4, indexBits d, 0#4, 0#4, 0#4, 0#4⟩
  | .sigchk a b => ⟨opcOf i, 0#4, 0#4, indexBits a, indexBits b, 0#4, 0#4⟩
  | .keychk a => ⟨opcOf i, 0#4, 0#4, indexBits a, 0#4, 0#4, 0#4⟩
  | .verify a b c e => ⟨opcOf i, 0#4, 0#4, indexBits a, indexBits b, indexBits c, indexBits e⟩

/-- The word that spells a command. -/
def encode (i : Instr) : Word := wordOfFields (fieldsOf i)

/-! ### The opcode map of R84, as the spec prints it -/

/-- One row: the word `w` spells the command iff `w AND mask = pattern` (R84's `match`). -/
structure OpcodeRow where
  mnemonic : String
  pattern : Word
  mask : Word
  deriving DecidableEq, Repr

/-- A word matches a row (R84). -/
def rowMatches (w : Word) (row : OpcodeRow) : Bool := w &&& row.mask == row.pattern

/-- The fourteen rows of R84. -/
def opcodeTable : List OpcodeRow :=
  [ ⟨"FADD", 0x10000000#32, 0xFFE888FF#32⟩,
    ⟨"FSUB", 0x11000000#32, 0xFFE888FF#32⟩,
    ⟨"FMUL", 0x12000000#32, 0xFFE888FF#32⟩,
    ⟨"FSQR", 0x13000000#32, 0xFFE88FFF#32⟩,
    ⟨"FINV", 0x14000000#32, 0xFFE88FFF#32⟩,
    ⟨"FRED", 0x15000000#32, 0xFFE88FFF#32⟩,
    ⟨"PADD", 0x20000000#32, 0xFFFCCCFF#32⟩,
    ⟨"PDBL", 0x21000000#32, 0xFFFCCFFF#32⟩,
    ⟨"PMUL", 0x22000000#32, 0xFFFC8CFF#32⟩,
    ⟨"PCHK", 0x23000000#32, 0xFFFFCFFF#32⟩,
    ⟨"PLDG", 0x24000000#32, 0xFFFCFFFF#32⟩,
    ⟨"SIGCHK", 0x30000000#32, 0xFFFF88FF#32⟩,
    ⟨"KEYCHK", 0x31000000#32, 0xFFFFCFFF#32⟩,
    ⟨"VERIFY", 0x40000000#32, 0xFFFFC888#32⟩ ]

/-- The mnemonic of a command (R84). -/
def mnemonicOf : Instr → String
  | .fadd .. => "FADD"
  | .fsub .. => "FSUB"
  | .fmul .. => "FMUL"
  | .fsqr .. => "FSQR"
  | .finv .. => "FINV"
  | .fred .. => "FRED"
  | .padd .. => "PADD"
  | .pdbl .. => "PDBL"
  | .pmul .. => "PMUL"
  | .pchk .. => "PCHK"
  | .pldg .. => "PLDG"
  | .sigchk .. => "SIGCHK"
  | .keychk .. => "KEYCHK"
  | .verify .. => "VERIFY"

end Sys2Proof
end

