-- ==== Sys2Proof/Config.lean ====
section
/-! DEFINITION. What is fixed for every ECV256 (`00_scope.md` R8, `10_state.md` R32), the platform's open
parameter BASE (R10), and the free values the spec leaves open (`20_memory.md` R60). -/

namespace Sys2Proof.Config

/-- The field prime `p` of P-256 (R8). -/
def p : Nat := 0xFFFFFFFF00000001000000000000000000000000FFFFFFFFFFFFFFFFFFFFFFFF

/-- The group order `n` of P-256 (R8). -/
def n : Nat := 0xFFFFFFFF00000000FFFFFFFFFFFFFFFFBCE6FAADA7179E84F3B9CAC2FC632551

/-- The coefficient `b` of the curve equation (R8). -/
def b : Nat := 0x5AC635D8AA3A93E7B3EBBD55769886BC651D06B0CC53B0F63BCE3C3E27D2604B

/-- The x coordinate of the base point `G` (R8). -/
def gx : Nat := 0x6B17D1F2E12C4247F8BCE6E563A440F277037D812DEB33A0F4A13945D898C296

/-- The y coordinate of the base point `G` (R8). -/
def gy : Nat := 0x4FE342E2FE1A7F9B8EE7EB4A7C0F9E162BCE33576B315ECECBB6406837BF51F5

/-- What the ID register always reads: the ASCII bytes `E`, `C`, `V`, `1` (R32). -/
def idValue : Word := 0x45435631#32

/-- FREE VALUE (log entry 1). What the `k`-th read of an `F` or `P` word while Busy returns: an unspecified
word, under no law (R60). It has no body: nothing can be proved of a value of it. -/
opaque busyRead : Nat → Word

/-- OPEN PARAMETER (log entry 7). BASE in units of the window's size, so that BASE is `0x1000`-aligned (R10). -/
opaque basePage : Nat

/-- BASE: the bus address of window offset 0 (R10). -/
def base : Nat := basePage * 0x1000

end Sys2Proof.Config
end

