-- ==== Sys2Proof/Machine/State.lean ====
section
/-! DEFINITION. The state of one ECV256 (`10_state.md` R20): the register files `F` and `P` and the control
registers CTRL, STATUS and CMD; beside them `Env`, the model's own record of the agents around the block
(`00_scope.md` R16). ID is hard-wired (R32) and the constants ROM is not state (R20, R57): both are answered by
the window's read. ECV256 has no program counter (R30) and no memory (R40). -/

namespace Sys2Proof.Machine

/-- The errors a command can complete with (`60_exceptions.md` R220, codes 1 to 6). -/
inductive CmdError where
  /-- Code 1: `r` or `s` is 0 or `>= n`; SIGCHK, VERIFY. -/
  | malformedSignature
  /-- Code 2: the key is the identity, out of range or off the curve; KEYCHK, VERIFY. -/
  | invalidPublicKey
  /-- Code 3: an inverse of zero; FINV, PADD (PMUL, unreachable). -/
  | divisionByZero
  /-- Code 4: `finv(s, n)` failing inside VERIFY, unreachable (R203). -/
  | internalError
  /-- Code 5: the word spells no command (R95). -/
  | illegalCommand
  /-- Code 6: an operand not reduced below its modulus (R111, R147). -/
  | operandRange
  deriving DecidableEq, Repr

/-- A point register: `inf = 1` denotes the identity whatever `x` and `y` hold (R24, R25). -/
structure Point where
  inf : Bool
  x : U256
  y : U256
  deriving DecidableEq, Repr

/-- The STATUS register (R34). ERR is `none` for code 0. The reserved bits 7:4 and 31:12 read zero and have no
storage. -/
structure Status where
  busy : Bool
  done : Bool
  valid : Bool
  ovr : Bool
  err : Option CmdError
  deriving DecidableEq, Repr

/-- One move of an agent (R16). A Host access carries its width in bytes and, as its offset from BASE, any number:
which accesses the window admits is R59's matter. -/
inductive Turn where
  /-- `MemRead(BASE + off, width)` (R50). -/
  | hostRead (off width : Nat)
  /-- `MemWrite(BASE + off, width, w)` (R50). -/
  | hostWrite (off width : Nat) (w : Word)
  /-- The Engine may take its `Complete` step (R100). -/
  | engine
  /-- The platform drives Reset (R260). -/
  | reset
  deriving DecidableEq, Repr

/-- The world around the block: the model's own fields, no state of ECV256 (log entries 1 and 2). -/
structure Env where
  /-- The moves to come, the next one first: the schedule of the two agents and the platform. -/
  turns : List Turn
  /-- The word the Host's last read returned, `none` before its first read. -/
  lastRead : Option Word
  /-- How many unspecified words reads while Busy have returned: the index of the next one (R60). -/
  draws : Nat
  deriving DecidableEq, Repr

/-- The whole machine. -/
structure State where
  /-- The field/scalar registers `F[0..7]` (R21). -/
  f : Vector U256 8
  /-- The point registers `P[0..3]` (R24). -/
  p : Vector Point 4
  /-- CTRL bit 0, the interrupt enable; CTRL bits 31:1 read zero and have no storage (R33). -/
  ie : Bool
  /-- STATUS (R34). -/
  status : Status
  /-- CMD, the last accepted command word and the pending-command latch (R37). -/
  cmd : Word
  /-- The agents' schedule and what the Host has read (the model's own). -/
  env : Env
  deriving DecidableEq, Repr

/-- Why the machine takes no step. -/
inductive Fault where
  /-- Raised by a Host access that is not an aligned 32-bit word inside the window: R59 gives the request no step
  and no data, the Host is stuck. Safe: nothing is proved of what follows such a request. -/
  | accessNotAdmitted
  deriving DecidableEq, Repr

/-- Why an instruction has no meaning. -/
inductive Refusal where
  /-- For an instruction the model gives no meaning yet; raised by none (every command has its meaning). Safe. -/
  | notModelled (mnemonic : String)
  deriving DecidableEq, Repr

/-- The canonical identity `inf = 1, x = 0, y = 0` (R26). -/
def Point.identity : Point := ⟨true, 0#256, 0#256⟩

/-- STATUS after reset, `0x00000000` (R34, R261). -/
def Status.reset : Status := ⟨false, false, false, false, none⟩

/-- No move is scheduled and nothing has been read (log entry 2). -/
def Env.reset : Env := ⟨[], none, 0⟩

/-- The machine right after reset: Idle, interrupt disabled, `F` zero, `P` the canonical identity (R261). -/
def State.reset : State where
  f := Vector.replicate 8 0#256
  p := Vector.replicate 4 Point.identity
  ie := false
  status := Status.reset
  cmd := 0#32
  env := Env.reset

end Sys2Proof.Machine
end

