-- ==== Sys2Proof/Machine/Flags.lean ====
section
/-! DEFINITION. The control registers as words: the error codes of `60_exceptions.md` R220, STATUS (`10_state.md`
R34), CTRL (R33), a point's FLAGS word (`20_memory.md` R56), the interrupt output (R39, R226), and how STATUS
changes at acceptance, completion, error and a host write. -/

namespace Sys2Proof.Machine

/-- The code of an error in `STATUS.ERR`, bits 11:8 (R220). -/
def errCode : CmdError → BitVec 4
  | .malformedSignature => 1#4
  | .invalidPublicKey => 2#4
  | .divisionByZero => 3#4
  | .internalError => 4#4
  | .illegalCommand => 5#4
  | .operandRange => 6#4

/-- ERR of a STATUS: 0 for none (R34, R220). -/
def errField : Option CmdError → BitVec 4
  | none => 0#4
  | some e => errCode e

/-- STATUS as a word: ERR 11:8, OVR 3, VALID 2, DONE 1, BUSY 0, all other bits zero (R34). -/
def statusWord (st : Status) : Word :=
  0#20 ++ errField st.err ++ 0#4 ++ BitVec.ofBool st.ovr ++ BitVec.ofBool st.valid ++ BitVec.ofBool st.done
    ++ BitVec.ofBool st.busy

/-- CTRL as a word: IE in bit 0, bits 31:1 zero (R33). -/
def ctrlWord (ie : Bool) : Word := 0#31 ++ BitVec.ofBool ie

/-- A point's FLAGS word: `inf` in bit 0, bits 31:1 zero (R56). -/
def flagsWord (pt : Point) : Word := 0#31 ++ BitVec.ofBool pt.inf

/-- The interrupt output, `irq = CTRL.IE AND STATUS.DONE`: a function of state, not state (R39, R226). -/
def irq (s : State) : Bool := s.ie && s.status.done

/-- STATUS at the acceptance of a command: BUSY set, DONE, VALID and ERR cleared, OVR unchanged (R37, R36). -/
def statusAccepted (st : Status) : Status :=
  { st with busy := true, done := false, valid := false, err := none }

/-- STATUS at a completion without error: ERR 0, VALID the command's value, OVR unchanged (R100, R36). -/
def statusCompleted (valid : Bool) (st : Status) : Status :=
  { st with busy := false, done := true, valid := valid, err := none }

/-- STATUS at a completion with an error: ERR its code, VALID 0, OVR unchanged (R100, R232). -/
def statusErred (e : CmdError) (st : Status) : Status :=
  { st with busy := false, done := true, valid := false, err := some e }

/-- STATUS when a host write is discarded (R36). -/
def statusOverrun (st : Status) : Status := { st with ovr := true }

/-- STATUS after a host writes `w` to it: bit 1 clears DONE, bit 3 clears OVR, all other bits are ignored (R34). -/
def statusWritten (w : Word) (st : Status) : Status :=
  { st with done := st.done && !w.getLsbD 1, ovr := st.ovr && !w.getLsbD 3 }

end Sys2Proof.Machine
end

