-- ==== Sys2Proof/Machine/Ops.lean ====
section
/-! DEFINITION. The named operations over the registers: the files `F` and `P`, the words of a 256-bit value in the
window's byte order (`20_memory.md` R52, R53), the value a point register denotes (`10_state.md` R25, R26), the
acceptance of a command (R37), its completion (`30_encoding.md` R100) and error entry (`60_exceptions.md` R232).
ECV256 has no return from an error and nothing to restore (R235). -/

namespace Sys2Proof.Machine

/-! ### The register files -/

/-- `F[i]` (R13, R21). An `i` above 7 names no register and is read by no command (R95 (d)). -/
def readF (s : State) (i : Nat) : U256 := s.f[i]?.getD 0#256

/-- `F[i] <- v` (R13). -/
def writeF (s : State) (i : Nat) (v : U256) : State := { s with f := s.f.setIfInBounds i v }

/-- `P[i]` (R13, R24). An `i` above 3 names no register and is read by no command (R95 (e)). -/
def readP (s : State) (i : Nat) : Point := s.p[i]?.getD Point.identity

/-- `P[i] <- pt`: all three components (R13). -/
def writeP (s : State) (i : Nat) (pt : Point) : State := { s with p := s.p.setIfInBounds i pt }

/-! ### The words of a 256-bit value -/

/-- `word_j(v) = v[255-32j : 224-32j]`, word 0 the most significant (R12, R53). -/
def wordOf (v : U256) (j : Nat) : Word := v.extractLsb' (224 - 32 * j) 32

/-- `v` with word `j` replaced by `w` and the other 224 bits unchanged (R53). -/
def setWord (v : U256) (j : Nat) (w : Word) : U256 :=
  (v &&& ~~~((0xFFFFFFFF#32).setWidth 256 <<< (224 - 32 * j))) ||| (w.setWidth 256 <<< (224 - 32 * j))

/-- `byte_k(v) = v[255-8k : 248-8k]`, byte 0 the most significant (R12, R52). -/
def byteOf (v : U256) (k : Nat) : Byte := v.extractLsb' (248 - 8 * k) 8

/-- Byte `k` of a window word, byte 0 at the lowest offset and most significant (R53). -/
def wordByte (w : Word) (k : Nat) : Byte := w.extractLsb' (24 - 8 * k) 8

/-! ### The value of a point register -/

/-- A curve point as the formulas use it: the identity or an affine pair of integers (R140). -/
inductive CurvePoint where
  | identity
  | affine (x y : Nat)
  deriving DecidableEq, Repr

/-- What a point register denotes: with `inf = 1` the identity, its `x` and `y` ignored (R25). -/
def pointValue (pt : Point) : CurvePoint :=
  if pt.inf then .identity else .affine pt.x.toNat pt.y.toNat

/-- How a command writes a point: the identity in the canonical form `inf = 1, x = 0, y = 0` (R26). -/
def pointOf : CurvePoint → Point
  | .identity => Point.identity
  | .affine x y => ⟨false, BitVec.ofNat 256 x, BitVec.ofNat 256 y⟩

/-! ### Acceptance and completion -/

/-- The acceptance of the command word `w`, one step (R37). -/
def accept (w : Word) (s : State) : State := { s with cmd := w, status := statusAccepted s.status }

/-- Error entry: the one way a command ends in an error. STATUS takes the code; no register changes, nothing is
saved and control goes nowhere (R14, R232, R233). -/
def raiseError (e : CmdError) (s : State) : State := { s with status := statusErred e s.status }

/-- A completion without error: only STATUS changes (R100). -/
def completeOk (valid : Bool) (s : State) : State := { s with status := statusCompleted valid s.status }

/-- What a command yields when no check fails: the one value it writes to its D register, or the VALID value of a
check, which writes none (R22, R27, R101 (c)). -/
inductive CmdResult where
  /-- `F[d] <- v`. -/
  | toF (d : Nat) (v : Nat)
  /-- `P[d] <- pt`. -/
  | toP (d : Nat) (pt : CurvePoint)
  /-- `VALID <- v`. -/
  | flag (v : Bool)
  deriving DecidableEq, Repr

/-- The `Complete` step's effect (R100): the destination write, if the command has one, and STATUS; VALID is 1 for a
command that writes a register and the computed value for a check (R35). -/
def finish (r : Except CmdError CmdResult) (s : State) : State :=
  match r with
  | .error e => raiseError e s
  | .ok (.toF d v) => completeOk true (writeF s d (BitVec.ofNat 256 v))
  | .ok (.toP d pt) => completeOk true (writeP s d (pointOf pt))
  | .ok (.flag v) => completeOk v s

end Sys2Proof.Machine
end

