-- ==== Sys2Proof/Machine/Operands.lean ====
section
/-! DEFINITION. The operands of a command: the legality of its register numbers (`30_encoding.md` R95 (d), (e)),
the modulus (`40_field_arithmetic.md` R110), and the range checks of field operands (R111), of the scalar and of
the points (`41_point_arithmetic.md` R147). Each check raises the error the spec names for it. -/

namespace Sys2Proof.Machine

/-- `M(MOD)`: `p` or `n` (R110). -/
def modulusValue : Modulus → Nat
  | .modP => Config.p
  | .modN => Config.n

/-- Raise `e` unless `c` holds (R14). -/
def require (c : Bool) (e : CmdError) : Except CmdError Unit := if c then .ok () else .error e

/-- The command's register numbers are legal; otherwise the word is illegal, whatever else holds (R95, R229 (1)).
No word decodes to such a command (log entry 9). -/
def requireLegal (i : Instr) : Except CmdError Unit := require i.wellFormed .illegalCommand

/-- The value of `F[i]` as an integer (R11, R21). -/
def fValue (s : State) (i : Nat) : Nat := (readF s i).toNat

/-- A reduced operand: `F[i]`, which must be below `m` (R111, R147). -/
def reducedOperand (s : State) (m i : Nat) : Except CmdError Nat := do
  require (fValue s i < m) .operandRange
  return fValue s i

/-- Both coordinates are FieldElements: `x < p` and `y < p`, `x` before `y` (R147). -/
def coordsInRange (pt : Point) : Bool := pt.x.toNat < Config.p && pt.y.toNat < Config.p

/-- A point operand: `P[i]`, whose coordinates must be in range unless it is the identity (R147). -/
def pointOperand (s : State) (i : Nat) : Except CmdError CurvePoint := do
  require ((readP s i).inf || coordsInRange (readP s i)) .operandRange
  return pointValue (readP s i)

end Sys2Proof.Machine
end

