-- ==== Sys2Proof/Machine/FieldCommands.lean ====
section
/-! DEFINITION. The field arithmetic family (`40_field_arithmetic.md`): the pure functions `fadd`, `fsub`, `fmul`,
`fsqr`, `finv`, `fred` over exact integers (R112 to R117) and the commands FADD, FSUB, FMUL, FSQR, FINV, FRED
(R120 to R125). -/

namespace Sys2Proof.Machine

/-! ### The pure functions -/

/-- The exact sum, less `m` if it reaches `m` (R112). -/
def fadd (a b m : Nat) : Nat := if a + b ≥ m then a + b - m else a + b

/-- `a - b`, adding the modulus first where it would go negative (R113). -/
def fsub (a b m : Nat) : Nat := if a ≥ b then a - b else a + m - b

/-- The exact 512-bit product, reduced (R114). -/
def fmul (a b m : Nat) : Nat := a * b % m

/-- The product of a value with itself (R115). -/
def fsqr (a m : Nat) : Nat := fmul a a m

/-- Square and multiply over the low `i` bits of `e`, from the most significant. -/
def powModBits (a e m : Nat) : Nat → Nat → Nat
  | 0, acc => acc
  | i + 1, acc =>
    let sq := fsqr acc m
    powModBits a e m i (if e.testBit i then fmul sq a m else sq)

/-- `a^e mod m` for a 256-bit exponent. -/
def powMod (a e m : Nat) : Nat := powModBits a e m 256 (1 % m)

/-- The inverse: `DivisionByZero` for 0, else `a^(m-2) mod m`, which is the unique inverse because `p` and `n` are
prime (R116; log entry 6). -/
def finv (a m : Nat) : Except CmdError Nat :=
  if a = 0 then .error .divisionByZero else .ok (powMod a (m - 2) m)

/-- One conditional subtraction (R117). -/
def fred (v m : Nat) : Nat := if v ≥ m then v - m else v

/-! ### The commands -/

/-- FADD: `F[D] <- fadd(a, b, m)`, both operands reduced, A before B (R120). -/
def execFadd (m : Modulus) (d a b : Nat) (s : State) : Host.Outcome State Fault Refusal :=
  .next (finish (do
    requireLegal (.fadd m d a b)
    let x ← reducedOperand s (modulusValue m) a
    let y ← reducedOperand s (modulusValue m) b
    return .toF d (fadd x y (modulusValue m))) s)

/-- FSUB: `F[D] <- fsub(a, b, m)` (R121). -/
def execFsub (m : Modulus) (d a b : Nat) (s : State) : Host.Outcome State Fault Refusal :=
  .next (finish (do
    requireLegal (.fsub m d a b)
    let x ← reducedOperand s (modulusValue m) a
    let y ← reducedOperand s (modulusValue m) b
    return .toF d (fsub x y (modulusValue m))) s)

/-- FMUL: `F[D] <- fmul(a, b, m)` (R122). -/
def execFmul (m : Modulus) (d a b : Nat) (s : State) : Host.Outcome State Fault Refusal :=
  .next (finish (do
    requireLegal (.fmul m d a b)
    let x ← reducedOperand s (modulusValue m) a
    let y ← reducedOperand s (modulusValue m) b
    return .toF d (fmul x y (modulusValue m))) s)

/-- FSQR: `F[D] <- fsqr(a, m)` (R123). -/
def execFsqr (m : Modulus) (d a : Nat) (s : State) : Host.Outcome State Fault Refusal :=
  .next (finish (do
    requireLegal (.fsqr m d a)
    let x ← reducedOperand s (modulusValue m) a
    return .toF d (fsqr x (modulusValue m))) s)

/-- FINV: `F[D] <- finv(a, m)`; `OperandRange` before `DivisionByZero` (R124). -/
def execFinv (m : Modulus) (d a : Nat) (s : State) : Host.Outcome State Fault Refusal :=
  .next (finish (do
    requireLegal (.finv m d a)
    let x ← reducedOperand s (modulusValue m) a
    let v ← finv x (modulusValue m)
    return .toF d v) s)

/-- FRED: `F[D] <- fred(v, m)` of any 256-bit value, no range check (R125). -/
def execFred (m : Modulus) (d a : Nat) (s : State) : Host.Outcome State Fault Refusal :=
  .next (finish (do
    requireLegal (.fred m d a)
    return .toF d (fred (fValue s a) (modulusValue m))) s)

end Sys2Proof.Machine
end

