-- ==== Sys2Proof/Machine/PointCommands.lean ====
section
/-! DEFINITION. The point arithmetic family (`41_point_arithmetic.md`): the curve equation, doubling, addition and
scalar multiplication as the spec writes them (R141 to R145) and the commands PADD, PDBL, PMUL, PCHK, PLDG
(R150 to R154). All field operations here are modulo `p`. -/

namespace Sys2Proof.Machine

/-! ### The pure functions -/

/-- The base point `G = (0, Gx, Gy)` (R154). -/
def basePoint : CurvePoint := .affine Config.gx Config.gy

/-- The curve equation `y^2 = x^3 - 3x + b (mod p)`, with the operations in R141's order. -/
def onCurve (x y : Nat) : Bool :=
  fsqr y Config.p
    == fadd (fsub (fmul (fsqr x Config.p) x Config.p) (fmul 3 x Config.p) Config.p) Config.b Config.p

/-- Negation (R142). No command negates; the test `P == -Q` of R144 uses the sum of the `y`s. -/
def pneg : CurvePoint → CurvePoint
  | .identity => .identity
  | .affine x y => .affine x (fsub 0 y Config.p)

/-- The point on the line of slope `l` through `(x1, y1)` and a second point with `x` coordinate `x2`:
`x' = l^2 - x1 - x2`, `y' = l(x1 - x') - y1`, all mod `p`. Doubling and addition share it (R143, R144; log entry 6). -/
def lineResult (l x1 y1 x2 : Nat) : CurvePoint :=
  let x3 := fsub (fsub (fsqr l Config.p) x1 Config.p) x2 Config.p
  .affine x3 (fsub (fmul l (fsub x1 x3 Config.p) Config.p) y1 Config.p)

/-- Point doubling (R143). Its only division is by `2y` with `y` not 0. -/
def pdbl : CurvePoint → Except CmdError CurvePoint
  | .identity => .ok .identity
  | .affine x y =>
    if y = 0 then .ok .identity
    else do
      let i ← finv (fmul 2 y Config.p) Config.p
      let l := fmul (fsub (fmul 3 (fsqr x Config.p) Config.p) 3 Config.p) i Config.p
      return lineResult l x y x

/-- Point addition, its cases in the order of R144; the chord's `finv(0, p)` raises `DivisionByZero` where the two
`x` are equal and the two `y` neither equal nor opposite. -/
def padd : CurvePoint → CurvePoint → Except CmdError CurvePoint
  | .identity, q => .ok q
  | .affine x1 y1, .identity => .ok (.affine x1 y1)
  | .affine x1 y1, .affine x2 y2 =>
    if x1 = x2 ∧ fadd y1 y2 Config.p = 0 then .ok .identity
    else if x1 = x2 ∧ y1 = y2 then pdbl (.affine x1 y1)
    else do
      let i ← finv (fsub x2 x1 Config.p) Config.p
      return lineResult (fmul (fsub y2 y1 Config.p) i Config.p) x1 y1 x2

/-- The loop of R145 over the low `i` bits of `k`, from the most significant. -/
def pmulBits (k : Nat) (pt : CurvePoint) : Nat → CurvePoint → Except CmdError CurvePoint
  | 0, acc => .ok acc
  | i + 1, acc => do
    let twice ← pdbl acc
    let acc' ← if k.testBit i then padd twice pt else .ok twice
    pmulBits k pt i acc'

/-- Scalar multiplication: 256 iterations of double-and-add from the identity (R145). -/
def pmul (k : Nat) (pt : CurvePoint) : Except CmdError CurvePoint := pmulBits k pt 256 .identity

/-! ### The commands -/

/-- PADD: `P[D] <- padd(P[A], P[B])`, ranges checked A before B, then `DivisionByZero` (R150). -/
def execPadd (d a b : Nat) (s : State) : Host.Outcome State Fault Refusal :=
  .next (finish (do
    requireLegal (.padd d a b)
    let pt ← pointOperand s a
    let qt ← pointOperand s b
    let r ← padd pt qt
    return .toP d r) s)

/-- PDBL: `P[D] <- pdbl(P[A])` (R151). -/
def execPdbl (d a : Nat) (s : State) : Host.Outcome State Fault Refusal :=
  .next (finish (do
    requireLegal (.pdbl d a)
    let pt ← pointOperand s a
    let r ← pdbl pt
    return .toP d r) s)

/-- PMUL: `P[D] <- pmul(F[A], P[B])`, the scalar below `n` and checked before the point (R152). -/
def execPmul (d a b : Nat) (s : State) : Host.Outcome State Fault Refusal :=
  .next (finish (do
    requireLegal (.pmul d a b)
    let k ← reducedOperand s Config.n a
    let pt ← pointOperand s b
    let r ← pmul k pt
    return .toP d r) s)

/-- The value PCHK writes to VALID: 1 for the identity, 0 for a coordinate out of range, else the curve equation
(R153). -/
def isOnCurve (pt : Point) : Bool :=
  pt.inf || (coordsInRange pt && onCurve pt.x.toNat pt.y.toNat)

/-- PCHK: VALID is the on-curve test, never an error of its own (R153). -/
def execPchk (a : Nat) (s : State) : Host.Outcome State Fault Refusal :=
  .next (finish (do
    requireLegal (.pchk a)
    return .flag (isOnCurve (readP s a))) s)

/-- PLDG: `P[D] <- (0, Gx, Gy)` (R154). -/
def execPldg (d : Nat) (s : State) : Host.Outcome State Fault Refusal :=
  .next (finish (do
    requireLegal (.pldg d)
    return .toP d basePoint) s)

end Sys2Proof.Machine
end

