-- ==== Sys2Proof/Machine/CheckCommands.lean ====
section
/-! DEFINITION. The decode checks (`42_decode_checks.md`): `sig_ok` (R180), `key_ok` (R184) and the commands SIGCHK
(R182) and KEYCHK (R185). Neither writes a register, in either outcome. -/

namespace Sys2Proof.Machine

/-- Both components of the signature lie in `[1, n-1]` (R180). -/
def sigOk (r s : Nat) : Bool := 1 ≤ r && r < Config.n && 1 ≤ s && s < Config.n

/-- The point is affine, in range and on the curve (R184). -/
def keyOk (pt : Point) : Bool := !pt.inf && coordsInRange pt && onCurve pt.x.toNat pt.y.toNat

/-- SIGCHK: `MalformedSignature` unless `sig_ok(F[A], F[B])` (R182). -/
def execSigchk (a b : Nat) (s : State) : Host.Outcome State Fault Refusal :=
  .next (finish (do
    requireLegal (.sigchk a b)
    require (sigOk (fValue s a) (fValue s b)) .malformedSignature
    return .flag true) s)

/-- KEYCHK: `InvalidPublicKey` unless `key_ok(P[A])` (R185). -/
def execKeychk (a : Nat) (s : State) : Host.Outcome State Fault Refusal :=
  .next (finish (do
    requireLegal (.keychk a)
    require (keyOk (readP s a)) .invalidPublicKey
    return .flag true) s)

end Sys2Proof.Machine
end

