-- ==== Sys2Proof/Machine/Verifier.lean ====
section
/-! DEFINITION. The verifier equation engine (`43_verifier.md`): `ecdsa_check` (R201) and the command VERIFY
(R202). -/

namespace Sys2Proof.Machine

/-- The inverse of step 2, whose failure surfaces as `InternalError` (R201; unreachable, R203). -/
def inverseOrInternal (s : Nat) : Except CmdError Nat :=
  match finv s Config.n with
  | .ok w => .ok w
  | .error _ => .error .internalError

/-- Steps 5 and 6: the identity does not verify; otherwise `R.x mod n` is compared with `r` (R201). -/
def comparesTo (r : Nat) : CurvePoint → Bool
  | .identity => false
  | .affine x _ => fred x Config.n == r

/-- The verification equation (R201). -/
def ecdsaCheck (e r s : Nat) (q : CurvePoint) : Except CmdError Bool := do
  let z := fred e Config.n
  let w ← inverseOrInternal s
  let u1 := fmul z w Config.n
  let u2 := fmul r w Config.n
  let pt1 ← pmul u1 basePoint
  let pt2 ← pmul u2 q
  let rt ← padd pt1 pt2
  return comparesTo r rt

/-- VERIFY: the signature is checked first, then the key, then the equation decides VALID (R202). -/
def execVerify (a b c e : Nat) (s : State) : Host.Outcome State Fault Refusal :=
  .next (finish (do
    requireLegal (.verify a b c e)
    require (sigOk (fValue s c) (fValue s e)) .malformedSignature
    require (keyOk (readP s a)) .invalidPublicKey
    let ok ← ecdsaCheck (fValue s b) (fValue s c) (fValue s e) (pointValue (readP s a))
    return .flag ok) s)

end Sys2Proof.Machine
end

