-- ==== Sys2Proof/Machine/Dispatch.lean ====
section
/-! DEFINITION. One arm per command (`30_encoding.md` R84): each calls the command's meaning. -/

namespace Sys2Proof.Machine

def exec (i : Instr) (s : State) : Host.Outcome State Fault Refusal :=
  match i with
  | .fadd m d a b => Sys2Proof.Machine.execFadd m d a b s
  | .fsub m d a b => Sys2Proof.Machine.execFsub m d a b s
  | .fmul m d a b => Sys2Proof.Machine.execFmul m d a b s
  | .fsqr m d a => Sys2Proof.Machine.execFsqr m d a s
  | .finv m d a => Sys2Proof.Machine.execFinv m d a s
  | .fred m d a => Sys2Proof.Machine.execFred m d a s
  | .padd d a b => Sys2Proof.Machine.execPadd d a b s
  | .pdbl d a => Sys2Proof.Machine.execPdbl d a s
  | .pmul d a b => Sys2Proof.Machine.execPmul d a b s
  | .pchk a => Sys2Proof.Machine.execPchk a s
  | .pldg d => Sys2Proof.Machine.execPldg d s
  | .sigchk a b => Sys2Proof.Machine.execSigchk a b s
  | .keychk a => Sys2Proof.Machine.execKeychk a s
  | .verify a b c e => Sys2Proof.Machine.execVerify a b c e s

end Sys2Proof.Machine
end

