-- ==== Sys2Proof/Machine/Window.lean ====
section
/-! DEFINITION. The register window (`20_memory.md`): which access is admitted (R50, R59), the address map (R51,
R55 to R58), what a read returns (R60, R62) and what a write does, Idle and Busy (R36, R37, R60, R62). -/

namespace Sys2Proof.Machine

/-- What stands at a word offset of the window (R51). -/
inductive Location where
  | id
  | ctrl
  | status
  | cmd
  /-- Word `j` of `F[i]` (R55). -/
  | fWord (i j : Nat)
  /-- Word `j` of `P[i].x` (R56). -/
  | xWord (i j : Nat)
  /-- Word `j` of `P[i].y` (R56). -/
  | yWord (i j : Nat)
  /-- The FLAGS word of `P[i]` (R56). -/
  | flags (i : Nat)
  /-- Word `j` of the `k`-th constant of the ROM (R57). -/
  | rom (k j : Nat)
  | reserved
  deriving DecidableEq, Repr

/-- Offset `o` within the `0x80` bytes of `P[i]` (R56). -/
def pointLocation (i o : Nat) : Location :=
  if o < 0x20 then .xWord i (o / 4)
  else if o < 0x40 then .yWord i ((o - 0x20) / 4)
  else if o = 0x40 then .flags i
  else .reserved

/-- The address map of R51 on word offsets. -/
def locate (off : Nat) : Location :=
  if off = 0x000 then .id
  else if off = 0x004 then .ctrl
  else if off = 0x008 then .status
  else if off = 0x00C then .cmd
  else if off < 0x100 then .reserved
  else if off < 0x200 then .fWord ((off - 0x100) / 0x20) ((off - 0x100) % 0x20 / 4)
  else if off < 0x400 then pointLocation ((off - 0x200) / 0x80) ((off - 0x200) % 0x80)
  else if off < 0x4A0 then .rom ((off - 0x400) / 0x20) ((off - 0x400) % 0x20 / 4)
  else .reserved

/-- The only admitted access: 4 bytes, aligned, inside the window (R50, R59). -/
def admitted (off width : Nat) : Bool := width == 4 && off % 4 == 0 && off < 0x1000

/-- The constants of the ROM in address order: `p`, `n`, `b`, `Gx`, `Gy` (R57). -/
def romConstant (k : Nat) : U256 :=
  match k with
  | 0 => BitVec.ofNat 256 Config.p
  | 1 => BitVec.ofNat 256 Config.n
  | 2 => BitVec.ofNat 256 Config.b
  | 3 => BitVec.ofNat 256 Config.gx
  | _ => BitVec.ofNat 256 Config.gy

/-- A location is a word of an `F` or `P` register, a FLAGS word included (R60). -/
def isRegisterWord : Location → Bool
  | .fWord .. | .xWord .. | .yWord .. | .flags .. => true
  | .id | .ctrl | .status | .cmd | .rom .. | .reserved => false

/-- The word a location holds: its true value, what a read returns except in the one case of R60. -/
def wordAt (s : State) : Location → Word
  | .id => Config.idValue
  | .ctrl => ctrlWord s.ie
  | .status => statusWord s.status
  | .cmd => s.cmd
  | .fWord i j => wordOf (readF s i) j
  | .xWord i j => wordOf (readP s i).x j
  | .yWord i j => wordOf (readP s i).y j
  | .flags i => flagsWord (readP s i)
  | .rom k j => wordOf (romConstant k) j
  | .reserved => 0#32

/-- The byte at a window offset, in the window's big-endian byte image (R52, R53). -/
def byteAt (s : State) (off : Nat) : Byte := wordByte (wordAt s (locate (off - off % 4))) (off % 4)

/-- `HostRead(off)`: the location's word, without a side effect on the block (R62); an `F` or `P` word while Busy
reads as a free value, a fresh one for each read (R60; log entry 1). -/
def hostRead (off : Nat) (s : State) : State :=
  if s.status.busy && isRegisterWord (locate off) then
    { s with env := { s.env with lastRead := some (Config.busyRead s.env.draws), draws := s.env.draws + 1 } }
  else { s with env := { s.env with lastRead := some (wordAt s (locate off)) } }

/-- A write that is performed while Idle: it stores its word, accepts a command, or is ignored (R32, R33, R34, R37,
R55 to R58, R62). A write to an `x` or `y` word leaves `inf` alone (R27). -/
def writeIdle (w : Word) (s : State) : Location → State
  | .id => s
  | .ctrl => { s with ie := w.getLsbD 0 }
  | .status => { s with status := statusWritten w s.status }
  | .cmd => accept w s
  | .fWord i j => writeF s i (setWord (readF s i) j w)
  | .xWord i j => writeP s i { readP s i with x := setWord (readP s i).x j w }
  | .yWord i j => writeP s i { readP s i with y := setWord (readP s i).y j w }
  | .flags i => writeP s i { readP s i with inf := w.getLsbD 0 }
  | .rom _ _ => s
  | .reserved => s

/-- A write while Busy: CTRL and STATUS are written, every other write is discarded and sets OVR (R36, R60). -/
def writeBusy (w : Word) (s : State) : Location → State
  | .ctrl => { s with ie := w.getLsbD 0 }
  | .status => { s with status := statusWritten w s.status }
  | .id | .cmd | .fWord .. | .xWord .. | .yWord .. | .flags .. | .rom .. | .reserved =>
    { s with status := statusOverrun s.status }

/-- `HostWrite(off, w)` (R50). -/
def hostWrite (off : Nat) (w : Word) (s : State) : State :=
  if s.status.busy then writeBusy w s (locate off) else writeIdle w s (locate off)

/-! ### The bus (R10, R50) -/

/-- The window offset of a bus address at or above BASE; an address below BASE is not ECV256's. -/
def offsetOf (addr : Nat) : Option Nat := if Config.base ≤ addr then some (addr - Config.base) else none

/-- `MemRead(addr, width)` as a Host move: `MemRead(BASE + off, 4)` is `HostRead(off)` (R50). -/
def memRead (addr width : Nat) : Option Turn := (offsetOf addr).map fun off => .hostRead off width

/-- `MemWrite(addr, width, w)` as a Host move (R50). -/
def memWrite (addr width : Nat) (w : Word) : Option Turn :=
  (offsetOf addr).map fun off => .hostWrite off width w

end Sys2Proof.Machine
end

