-- ==== Sys2Proof/Machine/Engine.lean ====
section
/-! DEFINITION. The moves of the agents (`00_scope.md` R16): the Engine's `Complete` step (`30_encoding.md` R100),
the Host's accesses (`20_memory.md` R50), Reset (`70_reset_and_hazards.md` R260), and whose move is next. -/

namespace Sys2Proof.Machine

/-- `Complete`: the command in CMD is performed; a word that spells none raises `IllegalCommand` (R95, R100). -/
def complete (s : State) : Host.Outcome State Fault Refusal :=
  match decode s.cmd with
  | .ok i => exec i s
  | .error _ => .next (raiseError .illegalCommand s)

/-- The Engine's turn: `Complete` is enabled exactly when Busy; when Idle the Engine has no step to take and the
turn passes (R16, R100). -/
def engineTurn (s : State) : Host.Outcome State Fault Refusal :=
  if s.status.busy then complete s else .next s

/-- Reset: the whole state of R20 at once, Idle or Busy; a Busy command is abandoned (R260, R261). What the Host
has read and has yet to do is not ECV256's state. -/
def resetMachine (s : State) : State := { State.reset with env := s.env }

/-- A Host read; an access that is not admitted has no step (R59). -/
def hostReadTurn (off width : Nat) (s : State) : Host.Outcome State Fault Refusal :=
  if admitted off width then .next (hostRead off s) else .fault .accessNotAdmitted

/-- A Host write; an access that is not admitted has no step (R59). -/
def hostWriteTurn (off width : Nat) (w : Word) (s : State) : Host.Outcome State Fault Refusal :=
  if admitted off width then .next (hostWrite off w s) else .fault .accessNotAdmitted

/-- The state once the scheduled moves are `ts`. -/
def withTurns (ts : List Turn) (s : State) : State := { s with env := { s.env with turns := ts } }

/-- One move: the next one scheduled; with none scheduled the Engine's, which completes an accepted command (the
fairness of R100) and otherwise waits for ever (R267; log entry 2). -/
def takeTurn (s : State) : Host.Outcome State Fault Refusal :=
  match s.env.turns with
  | [] => engineTurn s
  | .engine :: ts => engineTurn (withTurns ts s)
  | .reset :: ts => .next (resetMachine (withTurns ts s))
  | .hostRead off width :: ts => hostReadTurn off width (withTurns ts s)
  | .hostWrite off width w :: ts => hostWriteTurn off width w (withTurns ts s)

/-- `s` with the command word `w` just accepted (R37) and the Engine to move next (log entry 3). -/
def placeCommand (w : Word) (s : State) : State :=
  withTurns (.engine :: s.env.turns) (accept w s)

end Sys2Proof.Machine
end

