-- ==== Sys2Proof/Safety.lean ====
section
/-! DEFINITION. The terms claims are made in: the four ways a command leaves the machine (`30_encoding.md` R100), the
curve formulas as equations modulo `p` (`41_point_arithmetic.md` R141, R143, R144), the errors a command can have
(`60_exceptions.md` R221), what a command may write (R101), and the invariant of STATUS (`10_state.md` R34, R35,
R37). -/

namespace Sys2Proof.Safety

open Sys2Proof.Machine

/-! ### How a command leaves the machine (R100, R232) -/

/-- It completed without error and wrote `v` to `F[d]`; nothing else changed but STATUS. -/
def wroteF (s : State) (d : Fin 8) (v : Nat) : State :=
  { s with f := s.f.set d (BitVec.ofNat 256 v), status := ⟨false, true, true, s.status.ovr, none⟩ }

/-- It completed without error and wrote `pt` to `P[d]`; nothing else changed but STATUS. -/
def wroteP (s : State) (d : Fin 4) (pt : Point) : State :=
  { s with p := s.p.set d pt, status := ⟨false, true, true, s.status.ovr, none⟩ }

/-- It completed without error, wrote no register and left `v` in VALID. -/
def checked (s : State) (v : Bool) : State := { s with status := ⟨false, true, v, s.status.ovr, none⟩ }

/-- It completed with the error `e`: no register written, VALID 0 (R232). -/
def failed (s : State) (e : CmdError) : State := { s with status := ⟨false, true, false, s.status.ovr, some e⟩ }

/-- The affine point `(0, x, y)` as a register holds it. -/
def affinePoint (x y : Nat) : Point := ⟨false, BitVec.ofNat 256 x, BitVec.ofNat 256 y⟩

/-! ### Curve formulas, all modulo `p` -/

/-- `y^2 = x^3 - 3x + b (mod p)` (R141). -/
def CurveEquation (x y : Nat) : Prop :=
  (y : ZMod Config.p) ^ 2 = (x : ZMod Config.p) ^ 3 - 3 * x + Config.b

/-- `(x', y')` is the tangent result of R143 at `(x, y)`: `l = (3x^2 - 3) / (2y)`, `x' = l^2 - 2x`,
`y' = l(x - x') - y`. -/
def IsTangentResult (x y x' y' : Nat) : Prop :=
  ∃ l : ZMod Config.p, l * (2 * y) = 3 * (x : ZMod Config.p) ^ 2 - 3 ∧ (x' : ZMod Config.p) = l ^ 2 - 2 * x ∧
    (y' : ZMod Config.p) = l * (x - x') - y

/-- `(x3, y3)` is the chord result of R144 for `(x1, y1)` and `(x2, y2)`: `l = (y2 - y1) / (x2 - x1)`,
`x3 = l^2 - x1 - x2`, `y3 = l(x1 - x3) - y1`. -/
def IsChordResult (x1 y1 x2 y2 x3 y3 : Nat) : Prop :=
  ∃ l : ZMod Config.p, l * ((x2 : ZMod Config.p) - x1) = y2 - y1 ∧ (x3 : ZMod Config.p) = l ^ 2 - x1 - x2 ∧
    (y3 : ZMod Config.p) = l * (x1 - x3) - y1

/-- A point command accepts the operand: it is the identity or its coordinates are below `p` (R147). -/
def AcceptedPoint (pt : Point) : Prop := pt.inf = true ∨ (pt.x.toNat < Config.p ∧ pt.y.toNat < Config.p)

/-- The register holds a public key: affine, in range, on the curve (R184). -/
def ValidKey (pt : Point) : Prop :=
  pt.inf = false ∧ pt.x.toNat < Config.p ∧ pt.y.toNat < Config.p ∧ CurveEquation pt.x.toNat pt.y.toNat

/-- `r` and `s` are the components of a signature (R180). -/
def ValidSignature (r s : Nat) : Prop := (1 ≤ r ∧ r < Config.n) ∧ (1 ≤ s ∧ s < Config.n)

/-- The curve `y^2 = x^3 - 3x + b` over the integers modulo `p` (R3), as the library's Weierstrass curve. -/
def curve : WeierstrassCurve.Affine (ZMod Config.p) := ⟨0, 0, 0, -3, Config.b⟩

/-- A point of the library's curve as a CurvePoint with coordinates in `[0, p)` (R140). -/
def curvePointOf : curve.Point → CurvePoint
  | .zero => .identity
  | .some x y _ => .affine x.val y.val

/-! ### What a command may write and raise -/

/-- The `F` register a command writes, if any (R22). -/
def fDestination : Instr → Option Nat
  | .fadd _ d _ _ | .fsub _ d _ _ | .fmul _ d _ _ | .fsqr _ d _ | .finv _ d _ | .fred _ d _ => some d
  | .padd .. | .pdbl .. | .pmul .. | .pchk .. | .pldg .. | .sigchk .. | .keychk .. | .verify .. => none

/-- The `P` register a command writes, if any (R27). -/
def pDestination : Instr → Option Nat
  | .padd d _ _ | .pdbl d _ | .pmul d _ _ | .pldg d => some d
  | .fadd .. | .fsub .. | .fmul .. | .fsqr .. | .finv .. | .fred .. | .pchk .. | .sigchk .. | .keychk ..
  | .verify .. => none

/-- The errors a command can complete with: the entries `x` of the table of R221. -/
def possibleErrors : Instr → List CmdError
  | .fadd .. | .fsub .. | .fmul .. | .fsqr .. | .pdbl .. | .pmul .. => [.operandRange]
  | .finv .. | .padd .. => [.divisionByZero, .operandRange]
  | .fred .. | .pchk .. | .pldg .. => []
  | .sigchk .. => [.malformedSignature]
  | .keychk .. => [.invalidPublicKey]
  | .verify .. => [.malformedSignature, .invalidPublicKey]

/-! ### Whole-machine terms -/

/-- STATUS is one the machine can leave: BUSY and DONE are never both 1 (R34), an error implies VALID 0 (R35), and
while Busy VALID and ERR are clear (R35, R37). -/
abbrev StatusInvariant (s : State) : Prop :=
  ¬(s.status.busy = true ∧ s.status.done = true) ∧ (s.status.err ≠ none → s.status.valid = false) ∧
    (s.status.busy = true → s.status.valid = false ∧ s.status.err = none)

/-- The access is one the window admits: 4 bytes, aligned, inside the window (R50, R59). -/
abbrev Admitted (off width : Nat) : Prop := width = 4 ∧ off % 4 = 0 ∧ off < 0x1000

/-- The offset is reserved (R51, R56, R58). -/
abbrev Reserved (off : Nat) : Prop :=
  (0x10 ≤ off ∧ off < 0x100) ∨ (0x200 ≤ off ∧ off < 0x400 ∧ 0x44 ≤ (off - 0x200) % 0x80) ∨ 0x4A0 ≤ off

/-- The offset is a word of an `F` or `P` register, a FLAGS word included (R55, R56, R60). -/
abbrev RegisterWord (off : Nat) : Prop :=
  (0x100 ≤ off ∧ off < 0x200) ∨ (0x200 ≤ off ∧ off < 0x400 ∧ (off - 0x200) % 0x80 ≤ 0x40)

/-- A move that can be taken and is no Reset: an admitted Host access, or the Engine's. -/
def OrdinaryTurn : Turn → Prop
  | .hostRead off width => Admitted off width
  | .hostWrite off width _ => Admitted off width
  | .engine => True
  | .reset => False

end Sys2Proof.Safety
end

