-- ==== Sys2Proof/Certificates/Slice0/Obligations.lean ====
section
/-! DEFINITION. The statements about the model, for the provers. Register numbers range over `Fin 8` and `Fin 4`: every
legal form of a command; the forms that are not legal are `IllFormedCommandIsIllegal`'s. That the moves of the agents are
taken from the list `env.turns`, and that an empty list lets the Engine move, is the model's choice (log entry 2); a
statement about a move of an agent says "the next move is this one" by `s.env.turns = <the move> :: ts`. -/

open Sys2Proof Sys2Proof.Machine Sys2Proof.Safety

/-! ### Encoding (`30_encoding.md`) -/

/-- R83, R84: the word that spells a command decodes to that command, for every command with every operand. -/
def Obligations.DecodeOfEncodeIsTheCommand : Prop :=
  ∀ i : Instr, WellFormed i → decode (encode i) = .ok i

/-- R95 ("exactly one command or illegal"): a word that decodes is the one word that spells its command, and the
command is well-formed. -/
def Obligations.DecodedWordIsTheEncoding : Prop :=
  ∀ (w : Word) (i : Instr), decode w = .ok i → encode i = w ∧ WellFormed i

/-- R84: a word spells a row's command iff `(w AND mask) = match`, for each of the fourteen rows, and at most one row
matches any word. -/
def Obligations.DecodeAgreesWithTheOpcodeMap : Prop :=
  (∀ (w : Word), ∀ row ∈ opcodeTable,
    rowMatches w row = true ↔ ∃ i, decode w = .ok i ∧ mnemonicOf i = row.mnemonic) ∧
  ∀ (w : Word), ∀ row ∈ opcodeTable, ∀ row' ∈ opcodeTable,
    rowMatches w row = true → rowMatches w row' = true → row = row'

/-- R105's fourteen example words decode to the commands they stand for. -/
def Obligations.ExampleWordsDecode : Prop :=
  decode 0x10020100#32 = .ok (.fadd .modP 2 0 1) ∧ decode 0x11176500#32 = .ok (.fsub .modN 7 6 5) ∧
  decode 0x12020100#32 = .ok (.fmul .modP 2 0 1) ∧ decode 0x13011000#32 = .ok (.fsqr .modP 1 1) ∧
  decode 0x14132000#32 = .ok (.finv .modN 3 2) ∧ decode 0x15100000#32 = .ok (.fred .modN 0 0) ∧
  decode 0x20020100#32 = .ok (.padd 2 0 1) ∧ decode 0x21010000#32 = .ok (.pdbl 1 0) ∧
  decode 0x22034000#32 = .ok (.pmul 3 4 0) ∧ decode 0x23002000#32 = .ok (.pchk 2) ∧
  decode 0x24000000#32 = .ok (.pldg 0) ∧ decode 0x30001200#32 = .ok (.sigchk 1 2) ∧
  decode 0x31001000#32 = .ok (.keychk 1) ∧ decode 0x40001012#32 = .ok (.verify 1 0 1 2)

/-- R95 (d), (e): a command with a register number that does not exist raises `IllegalCommand` and writes
nothing, whatever its operands hold (R229 (1)). No word decodes to such a command: that `exec` answers so for it is the
model's choice (log entry 9). -/
def Obligations.IllFormedCommandIsIllegal : Prop :=
  ∀ (i : Instr) (s : State), ¬WellFormed i → exec i s = .next (failed s .illegalCommand)

/-! ### The step and the Engine (`30_encoding.md` R100) -/

/-- R100: while Busy and with the Engine to move, a step is the execution of the command in CMD; the only thing the
step does around it is to take the Engine's turn off the schedule (log entry 2). -/
def Obligations.StepRunsTheDecodedCommand : Prop :=
  ∀ (s : State) (i : Instr), s.status.busy = true → decode s.cmd = .ok i →
    (s.env.turns = [] → step s = exec i s) ∧
    (∀ ts, s.env.turns = .engine :: ts → step s = exec i { s with env := { s.env with turns := ts } })

/-- R95, R84: a word that matches no row of the opcode map completes with `IllegalCommand`: no register is written,
VALID = 0, ERR = 5, DONE = 1 (with none scheduled the Engine moves: log entry 2). -/
def Obligations.IllegalWordCompletesWithIllegalCommand : Prop :=
  ∀ (s : State), s.status.busy = true → (∀ row ∈ opcodeTable, rowMatches s.cmd row = false) →
    errField (some .illegalCommand) = 5#4 ∧
    (s.env.turns = [] → step s = .next (failed s .illegalCommand)) ∧
    (∀ ts, s.env.turns = .engine :: ts →
      step s = .next (failed { s with env := { s.env with turns := ts } } .illegalCommand))

/-- R267, R16: Idle is the quiescent condition: with no move scheduled, or a turn of the Engine, nothing happens
(log entry 2). -/
def Obligations.IdleMachineWaits : Prop :=
  ∀ (s : State), s.status.busy = false →
    (s.env.turns = [] → step s = .next s) ∧
    (∀ ts, s.env.turns = .engine :: ts → step s = .next { s with env := { s.env with turns := ts } })

/-- R100, R226: every command, on every state, completes at once: BUSY 0, DONE 1, and `irq` is `CTRL.IE`. -/
def Obligations.EveryCommandCompletes : Prop :=
  ∀ (i : Instr) (s : State),
    ∃ t, exec i s = .next t ∧ t.status.busy = false ∧ t.status.done = true ∧ irq t = s.ie

/-! ### Field arithmetic (`40_field_arithmetic.md`) -/

/-- R120, R112: FADD writes `(a + b) mod m`; an operand that is not reduced raises `OperandRange`. -/
def Obligations.FaddWritesTheModularSum : Prop :=
  ∀ (m : Modulus) (d a b : Fin 8) (s : State),
    (s.f[a.val].toNat < modulusValue m → s.f[b.val].toNat < modulusValue m →
      exec (.fadd m d a b) s = .next (wroteF s d ((s.f[a.val].toNat + s.f[b.val].toNat) % modulusValue m))) ∧
    (modulusValue m ≤ s.f[a.val].toNat ∨ modulusValue m ≤ s.f[b.val].toNat →
      exec (.fadd m d a b) s = .next (failed s .operandRange))

/-- R121, R113: FSUB writes `(a - b) mod m`, A minus B; an operand that is not reduced raises `OperandRange`. -/
def Obligations.FsubWritesTheModularDifference : Prop :=
  ∀ (m : Modulus) (d a b : Fin 8) (s : State),
    (s.f[a.val].toNat < modulusValue m → s.f[b.val].toNat < modulusValue m →
      exec (.fsub m d a b) s
        = .next (wroteF s d (((s.f[a.val].toNat : Int) - s.f[b.val].toNat) % modulusValue m).toNat)) ∧
    (modulusValue m ≤ s.f[a.val].toNat ∨ modulusValue m ≤ s.f[b.val].toNat →
      exec (.fsub m d a b) s = .next (failed s .operandRange))

/-- R122, R114: FMUL writes the exact product modulo `m`; an operand that is not reduced raises `OperandRange`. -/
def Obligations.FmulWritesTheModularProduct : Prop :=
  ∀ (m : Modulus) (d a b : Fin 8) (s : State),
    (s.f[a.val].toNat < modulusValue m → s.f[b.val].toNat < modulusValue m →
      exec (.fmul m d a b) s = .next (wroteF s d (s.f[a.val].toNat * s.f[b.val].toNat % modulusValue m))) ∧
    (modulusValue m ≤ s.f[a.val].toNat ∨ modulusValue m ≤ s.f[b.val].toNat →
      exec (.fmul m d a b) s = .next (failed s .operandRange))

/-- R123, R115: FSQR writes `a * a mod m` and always does what FMUL does with `a` twice; an operand that is not
reduced raises `OperandRange`. -/
def Obligations.FsqrWritesTheModularSquare : Prop :=
  ∀ (m : Modulus) (d a : Fin 8) (s : State),
    exec (.fsqr m d a) s = exec (.fmul m d a a) s ∧
    (s.f[a.val].toNat < modulusValue m →
      exec (.fsqr m d a) s = .next (wroteF s d (s.f[a.val].toNat * s.f[a.val].toNat % modulusValue m))) ∧
    (modulusValue m ≤ s.f[a.val].toNat → exec (.fsqr m d a) s = .next (failed s .operandRange))

/-- R124, R116: FINV writes the unique `x` in `[1, m-1]` with `a * x = 1 (mod m)`; an operand that is not reduced
raises `OperandRange`, and 0 raises `DivisionByZero`. -/
def Obligations.FinvWritesTheModularInverse : Prop :=
  ∀ (m : Modulus) (d a : Fin 8) (s : State),
    (s.f[a.val].toNat < modulusValue m → s.f[a.val].toNat ≠ 0 →
      ∃ x, 1 ≤ x ∧ x < modulusValue m ∧ s.f[a.val].toNat * x % modulusValue m = 1 ∧
        (∀ y < modulusValue m, s.f[a.val].toNat * y % modulusValue m = 1 → y = x) ∧
        exec (.finv m d a) s = .next (wroteF s d x)) ∧
    (modulusValue m ≤ s.f[a.val].toNat → exec (.finv m d a) s = .next (failed s .operandRange)) ∧
    (s.f[a.val].toNat = 0 → exec (.finv m d a) s = .next (failed s .divisionByZero))

/-- R125, R117: FRED writes `v mod m` of any 256-bit value and never raises an error. -/
def Obligations.FredWritesTheReduction : Prop :=
  ∀ (m : Modulus) (d a : Fin 8) (s : State),
    exec (.fred m d a) s = .next (wroteF s d (s.f[a.val].toNat % modulusValue m))

/-! ### Point arithmetic (`41_point_arithmetic.md`) -/

/-- R150, R144: PADD, case by case: the identity operands, opposite points, equal points (the tangent), different
`x` (the chord), and the two errors. -/
def Obligations.PaddAddsThePoints : Prop :=
  ∀ (d a b : Fin 4) (s : State),
    (s.p[a.val].inf = true → s.p[b.val].inf = true → exec (.padd d a b) s = .next (wroteP s d ⟨true, 0#256, 0#256⟩)) ∧
    (s.p[a.val].inf = true → s.p[b.val].inf = false → AcceptedPoint s.p[b.val] →
      exec (.padd d a b) s = .next (wroteP s d s.p[b.val])) ∧
    (s.p[a.val].inf = false → s.p[b.val].inf = true → AcceptedPoint s.p[a.val] →
      exec (.padd d a b) s = .next (wroteP s d s.p[a.val])) ∧
    (s.p[a.val].inf = false → s.p[b.val].inf = false → AcceptedPoint s.p[a.val] → AcceptedPoint s.p[b.val] →
      (s.p[a.val].x = s.p[b.val].x → (s.p[a.val].y.toNat + s.p[b.val].y.toNat) % Config.p = 0 →
        exec (.padd d a b) s = .next (wroteP s d ⟨true, 0#256, 0#256⟩)) ∧
      (s.p[a.val].x = s.p[b.val].x → (s.p[a.val].y.toNat + s.p[b.val].y.toNat) % Config.p ≠ 0 →
        s.p[a.val].y = s.p[b.val].y →
        ∃ x y, x < Config.p ∧ y < Config.p ∧ IsTangentResult s.p[a.val].x.toNat s.p[a.val].y.toNat x y ∧
          exec (.padd d a b) s = .next (wroteP s d (affinePoint x y))) ∧
      (s.p[a.val].x = s.p[b.val].x → (s.p[a.val].y.toNat + s.p[b.val].y.toNat) % Config.p ≠ 0 →
        s.p[a.val].y ≠ s.p[b.val].y →
        exec (.padd d a b) s = .next (failed s .divisionByZero)) ∧
      (s.p[a.val].x ≠ s.p[b.val].x →
        ∃ x y, x < Config.p ∧ y < Config.p ∧
          IsChordResult s.p[a.val].x.toNat s.p[a.val].y.toNat s.p[b.val].x.toNat s.p[b.val].y.toNat x y ∧
          exec (.padd d a b) s = .next (wroteP s d (affinePoint x y)))) ∧
    (¬AcceptedPoint s.p[a.val] ∨ ¬AcceptedPoint s.p[b.val] → exec (.padd d a b) s = .next (failed s .operandRange))

/-- R151, R143: PDBL: the identity and a point with `y = 0` give the identity, any other accepted point the tangent
result; a coordinate out of range raises `OperandRange`. -/
def Obligations.PdblDoublesThePoint : Prop :=
  ∀ (d a : Fin 4) (s : State),
    (s.p[a.val].inf = true → exec (.pdbl d a) s = .next (wroteP s d ⟨true, 0#256, 0#256⟩)) ∧
    (s.p[a.val].inf = false → AcceptedPoint s.p[a.val] → s.p[a.val].y = 0#256 →
      exec (.pdbl d a) s = .next (wroteP s d ⟨true, 0#256, 0#256⟩)) ∧
    (s.p[a.val].inf = false → AcceptedPoint s.p[a.val] → s.p[a.val].y ≠ 0#256 →
      ∃ x y, x < Config.p ∧ y < Config.p ∧ IsTangentResult s.p[a.val].x.toNat s.p[a.val].y.toNat x y ∧
        exec (.pdbl d a) s = .next (wroteP s d (affinePoint x y))) ∧
    (¬AcceptedPoint s.p[a.val] → exec (.pdbl d a) s = .next (failed s .operandRange))

/-- R152, R147: PMUL writes `pmul(k, P)` for every scalar below `n` and every accepted point, on the curve or off
it: `DivisionByZero` cannot arise; a scalar or a coordinate out of range raises `OperandRange`. -/
def Obligations.PmulWritesTheMultiple : Prop :=
  ∀ (d b : Fin 4) (a : Fin 8) (s : State),
    (s.f[a.val].toNat < Config.n → AcceptedPoint s.p[b.val] →
      ∃ r, pmul s.f[a.val].toNat (pointValue s.p[b.val]) = .ok r ∧
        exec (.pmul d a b) s = .next (wroteP s d (pointOf r))) ∧
    (Config.n ≤ s.f[a.val].toNat ∨ ¬AcceptedPoint s.p[b.val] → exec (.pmul d a b) s = .next (failed s .operandRange))

/-- R145: `pmul` is double-and-add: `k = 0` gives the identity, the identity gives the identity for every `k`, and each
further bit of `k` doubles and, where it is 1, adds the point. -/
def Obligations.PmulIsDoubleAndAdd : Prop :=
  ∀ (k : Nat) (pt : CurvePoint), k < 2 ^ 255 →
    pmul 0 pt = .ok .identity ∧ pmul k .identity = .ok .identity ∧
    pmul (2 * k) pt = (pmul k pt).bind pdbl ∧
    pmul (2 * k + 1) pt = ((pmul k pt).bind pdbl).bind fun acc => padd acc pt

/-- R153, R141: PCHK leaves in VALID 1 for the identity, else whether the coordinates are in range and satisfy the
curve equation; it is never an error. -/
def Obligations.PchkTestsTheCurveEquation : Prop :=
  ∀ (a : Fin 4) (s : State), ∃ v, exec (.pchk a) s = .next (checked s v) ∧
    (v = true ↔ s.p[a.val].inf = true ∨ (s.p[a.val].x.toNat < Config.p ∧ s.p[a.val].y.toNat < Config.p ∧
      CurveEquation s.p[a.val].x.toNat s.p[a.val].y.toNat))

/-- R154: PLDG writes the base point, in every state. -/
def Obligations.PldgWritesTheBasePoint : Prop :=
  ∀ (d : Fin 4) (s : State), exec (.pldg d) s = .next (wroteP s d (affinePoint Config.gx Config.gy))

/-- R146 (a), (b): on the P-256 curve `padd` is the group law and `pdbl(P)` is `P + P`; the accepted points that
satisfy the curve equation are exactly the points of the curve. -/
def Obligations.PaddIsTheGroupLaw : Prop :=
  ∀ [Fact (Nat.Prime Config.p)],
    (∀ A B : curve.Point, padd (curvePointOf A) (curvePointOf B) = .ok (curvePointOf (A + B))) ∧
    (∀ A : curve.Point, pdbl (curvePointOf A) = .ok (curvePointOf (A + A))) ∧
    (∀ x y, x < Config.p → y < Config.p →
      ((∃ A : curve.Point, curvePointOf A = .affine x y) ↔ CurveEquation x y))

/-- R146 (b): on the P-256 curve `pmul(k, P)` is `P` added `k` times, for every `k` below `2^256`. -/
def Obligations.PmulIsRepeatedAddition : Prop :=
  ∀ [Fact (Nat.Prime Config.p)] (k : Nat) (A : curve.Point), k < 2 ^ 256 →
    pmul k (curvePointOf A) = .ok (curvePointOf (k • A))

/-- R8, R146 (c): `n * G` is the identity. -/
def Obligations.OrderTimesBasePointIsTheIdentity : Prop :=
  pmul Config.n basePoint = .ok .identity

/-! ### Decode checks and the verifier (`42_decode_checks.md`, `43_verifier.md`) -/

/-- R182, R180: SIGCHK passes iff `r` and `s` are in `[1, n-1]`, and otherwise raises `MalformedSignature`; it writes
no register. -/
def Obligations.SigchkChecksTheRange : Prop :=
  ∀ (a b : Fin 8) (s : State),
    (ValidSignature s.f[a.val].toNat s.f[b.val].toNat → exec (.sigchk a b) s = .next (checked s true)) ∧
    (¬ValidSignature s.f[a.val].toNat s.f[b.val].toNat → exec (.sigchk a b) s = .next (failed s .malformedSignature))

/-- R185, R184: KEYCHK passes iff the point is affine, in range and on the curve, and otherwise raises
`InvalidPublicKey`; it writes no register. -/
def Obligations.KeychkChecksTheKey : Prop :=
  ∀ (a : Fin 4) (s : State),
    (ValidKey s.p[a.val] → exec (.keychk a) s = .next (checked s true)) ∧
    (¬ValidKey s.p[a.val] → exec (.keychk a) s = .next (failed s .invalidPublicKey))

/-- R202, R201, R203: VERIFY checks the signature, then the key, then leaves in VALID the outcome of the verification
equation; no other error arises and no register is written. -/
def Obligations.VerifyDecidesTheEquation : Prop :=
  ∀ (a : Fin 4) (b c e : Fin 8) (s : State),
    (¬ValidSignature s.f[c.val].toNat s.f[e.val].toNat →
      exec (.verify a b c e) s = .next (failed s .malformedSignature)) ∧
    (ValidSignature s.f[c.val].toNat s.f[e.val].toNat → ¬ValidKey s.p[a.val] →
      exec (.verify a b c e) s = .next (failed s .invalidPublicKey)) ∧
    (ValidSignature s.f[c.val].toNat s.f[e.val].toNat → ValidKey s.p[a.val] →
      ∃ w A B R v, w < Config.n ∧ s.f[e.val].toNat * w % Config.n = 1 ∧
        pmul (s.f[b.val].toNat % Config.n * w % Config.n) (.affine Config.gx Config.gy) = .ok A ∧
        pmul (s.f[c.val].toNat * w % Config.n) (.affine s.p[a.val].x.toNat s.p[a.val].y.toNat) = .ok B ∧
        padd A B = .ok R ∧
        (v = true ↔ ∃ x y, R = .affine x y ∧ x % Config.n = s.f[c.val].toNat) ∧
        exec (.verify a b c e) s = .next (checked s v))

/-- R206, first property: VERIFY accepts what a signer makes: the signature `(r, s)` of the digest `z` under the
private key `dk` with the nonce `k`, `Q = dk * G`, `r = (k * G).x mod n`, `k * s = z + r * dk (mod n)`. -/
def Obligations.VerifyAcceptsASignersSignature : Prop :=
  ∀ (a : Fin 4) (b c e : Fin 8) (s : State) (dk k rx ry : Nat),
    1 ≤ dk → dk < Config.n → 1 ≤ k → k < Config.n →
    s.p[a.val].inf = false →
    pmul dk basePoint = .ok (.affine s.p[a.val].x.toNat s.p[a.val].y.toNat) →
    pmul k basePoint = .ok (.affine rx ry) →
    s.f[c.val].toNat = rx % Config.n → s.f[c.val].toNat ≠ 0 →
    k * s.f[e.val].toNat % Config.n = (s.f[b.val].toNat + s.f[c.val].toNat * dk) % Config.n →
    s.f[e.val].toNat ≠ 0 → s.f[e.val].toNat < Config.n →
    exec (.verify a b c e) s = .next (checked s true)

/-! ### What every command leaves unchanged, and its errors -/

/-- R101 (c), R22, R27, R232: a command writes at most its own D register; every other `F` and `P` register, CTRL,
CMD and OVR are unchanged, and so is what the Host has read and has to do. -/
def Obligations.CommandWritesOnlyItsDestination : Prop :=
  ∀ (i : Instr) (s t : State), exec i s = .next t →
    (∀ j : Fin 8, fDestination i ≠ some j.val → t.f[j.val] = s.f[j.val]) ∧
    (∀ j : Fin 4, pDestination i ≠ some j.val → t.p[j.val] = s.p[j.val]) ∧
    t.ie = s.ie ∧ t.cmd = s.cmd ∧ t.status.ovr = s.status.ovr ∧ t.env = s.env

/-- The frame over the window's bytes (R51, R101 (c)): after a command every byte reads as before, except STATUS and
the bytes of its own D register. -/
def Obligations.CommandLeavesOtherWindowBytes : Prop :=
  ∀ (i : Instr) (s t : State) (off : Nat), exec i s = .next t →
    ¬(0x008 ≤ off ∧ off < 0x00C) →
    (∀ d, fDestination i = some d → ¬(0x100 + 0x20 * d ≤ off ∧ off < 0x100 + 0x20 * d + 0x20)) →
    (∀ d, pDestination i = some d → ¬(0x200 + 0x80 * d ≤ off ∧ off < 0x200 + 0x80 * d + 0x44)) →
    byteAt t off = byteAt s off

/-- R232, R233: a command that ends in an error writes no register; it leaves VALID 0, ERR the error, BUSY 0, DONE 1
and everything else as it was; `irq` is then `CTRL.IE`. -/
def Obligations.ErrorChangesOnlyStatus : Prop :=
  ∀ (i : Instr) (s t : State) (e : CmdError),
    exec i s = .next t → t.status.err = some e → t = failed s e ∧ irq t = s.ie

/-- R221: a command completes only with an error its row of the table marks `x`; the paths marked `u` are never
taken and the blank ones do not exist. -/
def Obligations.ErrorsOfEachCommand : Prop :=
  ∀ (i : Instr) (s t : State) (e : CmdError),
    WellFormed i → exec i s = .next t → t.status.err = some e → e ∈ possibleErrors i

/-- R233, R35, R36: what a command does to the registers, VALID and ERR depends on nothing but the command and the
`F` and `P` registers: not on STATUS, CTRL or CMD, nor on what the Host does. -/
def Obligations.OutcomeDependsOnlyOnRegisters : Prop :=
  ∀ (i : Instr) (s s' : State), s.f = s'.f → s.p = s'.p →
    ∃ t t', exec i s = .next t ∧ exec i s' = .next t' ∧
      t.f = t'.f ∧ t.p = t'.p ∧ t.status.valid = t'.status.valid ∧ t.status.err = t'.status.err

/-- R220: the codes of ERR. -/
def Obligations.ErrorCodes : Prop :=
  errField none = 0#4 ∧ errField (some .malformedSignature) = 1#4 ∧ errField (some .invalidPublicKey) = 2#4 ∧
  errField (some .divisionByZero) = 3#4 ∧ errField (some .internalError) = 4#4 ∧
  errField (some .illegalCommand) = 5#4 ∧ errField (some .operandRange) = 6#4

/-! ### The register window (`20_memory.md`) -/

/-- R55, R53: while Idle, a read of word `j` of `F[i]` returns bits `[255-32j : 224-32j]` and a write replaces exactly
those bits. -/
def Obligations.IdleFieldWordAccess : Prop :=
  ∀ (s : State) (ts : List Turn) (i j : Fin 8), s.status.busy = false →
    (s.env.turns = .hostRead (0x100 + 0x20 * i + 4 * j) 4 :: ts →
      step s = .next { s with env := { s.env with
        turns := ts, lastRead := some (s.f[i.val].extractLsb' (224 - 32 * j) 32) } }) ∧
    (∀ w, s.env.turns = .hostWrite (0x100 + 0x20 * i + 4 * j) 4 w :: ts →
      ∃ v : U256, step s = .next { s with f := s.f.set i v, env := { s.env with turns := ts } } ∧
        ∀ k < 256, v.getLsbD k
          = if 224 - 32 * j.val ≤ k ∧ k < 256 - 32 * j.val then w.getLsbD (k - (224 - 32 * j))
            else s.f[i.val].getLsbD k)

/-- R56: while Idle, the words of `P[i].x`, `P[i].y` and the FLAGS word read as the component's bits; FLAGS bits 31:1
read zero. -/
def Obligations.IdlePointWordReads : Prop :=
  ∀ (s : State) (ts : List Turn) (i : Fin 4) (j : Fin 8), s.status.busy = false →
    (s.env.turns = .hostRead (0x200 + 0x80 * i + 4 * j) 4 :: ts →
      step s = .next { s with env := { s.env with
        turns := ts, lastRead := some (s.p[i.val].x.extractLsb' (224 - 32 * j) 32) } }) ∧
    (s.env.turns = .hostRead (0x200 + 0x80 * i + 0x20 + 4 * j) 4 :: ts →
      step s = .next { s with env := { s.env with
        turns := ts, lastRead := some (s.p[i.val].y.extractLsb' (224 - 32 * j) 32) } }) ∧
    (s.env.turns = .hostRead (0x200 + 0x80 * i + 0x40) 4 :: ts →
      step s = .next { s with env := { s.env with
        turns := ts, lastRead := some (if s.p[i.val].inf then 1#32 else 0#32) } })

/-- R56, R27: while Idle, a write of a coordinate word replaces exactly its bits and never changes `inf`; a write of
FLAGS sets `inf` to bit 0 and ignores the other bits. -/
def Obligations.IdlePointWordWrites : Prop :=
  ∀ (s : State) (ts : List Turn) (i : Fin 4) (j : Fin 8) (w : Word), s.status.busy = false →
    (s.env.turns = .hostWrite (0x200 + 0x80 * i + 4 * j) 4 w :: ts →
      ∃ v : U256,
        step s = .next { s with p := s.p.set i { s.p[i.val] with x := v }, env := { s.env with turns := ts } } ∧
        ∀ k < 256, v.getLsbD k
          = if 224 - 32 * j.val ≤ k ∧ k < 256 - 32 * j.val then w.getLsbD (k - (224 - 32 * j))
            else s.p[i.val].x.getLsbD k) ∧
    (s.env.turns = .hostWrite (0x200 + 0x80 * i + 0x20 + 4 * j) 4 w :: ts →
      ∃ v : U256,
        step s = .next { s with p := s.p.set i { s.p[i.val] with y := v }, env := { s.env with turns := ts } } ∧
        ∀ k < 256, v.getLsbD k
          = if 224 - 32 * j.val ≤ k ∧ k < 256 - 32 * j.val then w.getLsbD (k - (224 - 32 * j))
            else s.p[i.val].y.getLsbD k) ∧
    (s.env.turns = .hostWrite (0x200 + 0x80 * i + 0x40) 4 w :: ts →
      step s = .next { s with
        p := s.p.set i { s.p[i.val] with inf := w.getLsbD 0 }, env := { s.env with turns := ts } })

/-- R32, R33, R34, R37, R57, R58, R62: ID, CTRL, STATUS, CMD, the constants ROM and the reserved offsets read their
true value, Busy or Idle, and no read changes the block. -/
def Obligations.ControlAndRomReads : Prop :=
  ∀ (s : State) (ts : List Turn) (off : Nat) (w : Word), s.env.turns = .hostRead off 4 :: ts →
    (off = 0x000 ∧ w = 0x45435631#32) ∨
    (off = 0x004 ∧ w = BitVec.ofNat 32 s.ie.toNat) ∨
    (off = 0x008 ∧ w = BitVec.ofNat 32 (s.status.busy.toNat + 2 * s.status.done.toNat + 4 * s.status.valid.toNat
      + 8 * s.status.ovr.toNat + 256 * (errField s.status.err).toNat)) ∨
    (off = 0x00C ∧ w = s.cmd) ∨
    (∃ j : Fin 8, off = 0x400 + 4 * j ∧ w = (BitVec.ofNat 256 Config.p).extractLsb' (224 - 32 * j) 32) ∨
    (∃ j : Fin 8, off = 0x420 + 4 * j ∧ w = (BitVec.ofNat 256 Config.n).extractLsb' (224 - 32 * j) 32) ∨
    (∃ j : Fin 8, off = 0x440 + 4 * j ∧ w = (BitVec.ofNat 256 Config.b).extractLsb' (224 - 32 * j) 32) ∨
    (∃ j : Fin 8, off = 0x460 + 4 * j ∧ w = (BitVec.ofNat 256 Config.gx).extractLsb' (224 - 32 * j) 32) ∨
    (∃ j : Fin 8, off = 0x480 + 4 * j ∧ w = (BitVec.ofNat 256 Config.gy).extractLsb' (224 - 32 * j) 32) ∨
    (Admitted off 4 ∧ Reserved off ∧ w = 0#32) →
    step s = .next { s with env := { s.env with turns := ts, lastRead := some w } }

/-- R60: while Busy a read of any word of an `F` or `P` register returns an unspecified word, a fresh one for each
read, and changes nothing else. The word is the free value of log entry 1: this holds for every value of
`Config.busyRead`. -/
def Obligations.BusyRegisterReadIsUnspecified : Prop :=
  ∀ (s : State) (ts : List Turn) (off : Nat), s.status.busy = true → Admitted off 4 → RegisterWord off →
    s.env.turns = .hostRead off 4 :: ts →
    step s = .next { s with env :=
      { turns := ts, lastRead := some (Config.busyRead s.env.draws), draws := s.env.draws + 1 } }

/-- R36, R60: while Busy a write to anything but CTRL and STATUS is discarded and sets OVR. -/
def Obligations.BusyWriteIsDiscarded : Prop :=
  ∀ (s : State) (ts : List Turn) (off : Nat) (w : Word), s.status.busy = true → Admitted off 4 →
    off ≠ 0x004 → off ≠ 0x008 → s.env.turns = .hostWrite off 4 w :: ts →
    step s = .next { s with status := { s.status with ovr := true }, env := { s.env with turns := ts } }

/-- R33, R34: a write of CTRL sets IE to bit 0; a write of STATUS clears DONE for bit 1 and OVR for bit 3 and
ignores the rest; both Busy or Idle. R39, R226: `irq` follows at once: after a write of CTRL it is the written bit and
DONE, after a write of STATUS it falls if DONE is cleared. -/
def Obligations.CtrlAndStatusWrites : Prop :=
  ∀ (s : State) (ts : List Turn) (w : Word),
    (s.env.turns = .hostWrite 0x004 4 w :: ts →
      ∃ t, step s = .next t ∧ t = { s with ie := w.getLsbD 0, env := { s.env with turns := ts } } ∧
        irq t = (w.getLsbD 0 && s.status.done)) ∧
    (s.env.turns = .hostWrite 0x008 4 w :: ts →
      ∃ t, step s = .next t ∧
        t = { s with
          status := { s.status with
            done := s.status.done && !w.getLsbD 1, ovr := s.status.ovr && !w.getLsbD 3 },
          env := { s.env with turns := ts } } ∧
        irq t = (s.ie && s.status.done && !w.getLsbD 1))

/-- R32, R57, R58: while Idle a write to ID, the constants ROM or a reserved offset is ignored. -/
def Obligations.IdleWritesIgnored : Prop :=
  ∀ (s : State) (ts : List Turn) (off : Nat) (w : Word), s.status.busy = false → Admitted off 4 →
    off = 0x000 ∨ (0x400 ≤ off ∧ off < 0x4A0) ∨ Reserved off → s.env.turns = .hostWrite off 4 w :: ts →
    step s = .next { s with env := { s.env with turns := ts } }

/-- R37: a write of CMD while Idle accepts the command, whatever the word. R39, R226: an acceptance clears DONE, so
`irq` is then 0. -/
def Obligations.CmdWriteWhileIdleAccepts : Prop :=
  ∀ (s : State) (ts : List Turn) (w : Word), s.status.busy = false → s.env.turns = .hostWrite 0x00C 4 w :: ts →
    ∃ t, step s = .next t ∧
      t = { s with
        cmd := w, status := ⟨true, false, false, s.status.ovr, none⟩, env := { s.env with turns := ts } } ∧
      irq t = false

/-- R59: an access that is not an aligned 32-bit word inside the window has no step. That the step then ends in the
fault `accessNotAdmitted` is the model's form of R59's "no step" (log entry 4). -/
def Obligations.UnadmittedAccessHasNoStep : Prop :=
  ∀ (s : State) (ts : List Turn) (off width : Nat) (w : Word), ¬Admitted off width →
    s.env.turns = .hostRead off width :: ts ∨ s.env.turns = .hostWrite off width w :: ts →
    step s = .fault .accessNotAdmitted

/-- R52: every 256-bit quantity appears in the window as a 32-byte big-endian string: the `F` registers, the coordinates
of the `P` registers and the five constants of the ROM. -/
def Obligations.RegistersAreBigEndianInTheWindow : Prop :=
  ∀ (s : State) (k : Fin 32),
    (∀ i : Fin 8, byteAt s (0x100 + 0x20 * i + k) = s.f[i.val].extractLsb' (248 - 8 * k) 8) ∧
    (∀ i : Fin 4, byteAt s (0x200 + 0x80 * i + k) = s.p[i.val].x.extractLsb' (248 - 8 * k) 8) ∧
    (∀ i : Fin 4, byteAt s (0x200 + 0x80 * i + 0x20 + k) = s.p[i.val].y.extractLsb' (248 - 8 * k) 8) ∧
    (∀ c ∈ [(0x400, Config.p), (0x420, Config.n), (0x440, Config.b), (0x460, Config.gx), (0x480, Config.gy)],
      byteAt s (c.1 + k) = (BitVec.ofNat 256 c.2).extractLsb' (248 - 8 * k) 8)

/-- R50: `HostRead(off)` and `HostWrite(off, w)` are `MemRead(BASE + off, 4)` and `MemWrite(BASE + off, 4, w)`. -/
def Obligations.WindowOffsetsAreFromBase : Prop :=
  ∀ (off : Nat) (w : Word),
    memRead (Config.base + off) 4 = some (.hostRead off 4) ∧
    memWrite (Config.base + off) 4 w = some (.hostWrite off 4 w)

/-! ### Reset, and rules of the whole machine -/

/-- R260: Reset takes the whole state to its reset values in one step, Idle or Busy, without a completion. -/
def Obligations.ResetTakesEverythingToItsResetValue : Prop :=
  ∀ (s : State) (ts : List Turn), s.env.turns = .reset :: ts →
    step s = .next
      { f := Vector.replicate 8 0#256, p := Vector.replicate 4 ⟨true, 0#256, 0#256⟩, ie := false,
        status := ⟨false, false, false, false, none⟩, cmd := 0#32, env := { s.env with turns := ts } }

/-- R261: the state right after reset, and what ID, CTRL, STATUS, CMD, the constants ROM and `irq` read as then. -/
def Obligations.ResetValues : Prop :=
  (∀ i : Fin 8, State.reset.f[i.val] = 0#256) ∧ (∀ i : Fin 4, State.reset.p[i.val] = ⟨true, 0#256, 0#256⟩) ∧
  wordAt State.reset (locate 0x000) = 0x45435631#32 ∧ wordAt State.reset (locate 0x004) = 0#32 ∧
  wordAt State.reset (locate 0x008) = 0#32 ∧ wordAt State.reset (locate 0x00C) = 0#32 ∧ irq State.reset = false ∧
  (∀ c ∈ [(0x400, Config.p), (0x420, Config.n), (0x440, Config.b), (0x460, Config.gx), (0x480, Config.gy)],
    ∀ j : Fin 8, wordAt State.reset (locate (c.1 + 4 * j)) = (BitVec.ofNat 256 c.2).extractLsb' (224 - 32 * j) 32)

/-- R34, R35, R37: every step of every agent keeps STATUS consistent: BUSY and DONE never both 1, an error implies
VALID 0, VALID and ERR clear while Busy. -/
def Obligations.EveryStepKeepsStatusConsistent : Prop :=
  ∀ s t : State, StatusInvariant s → step s = .next t → StatusInvariant t

/-- STATUS is consistent at reset. -/
def Obligations.StatusConsistentAtReset : Prop := StatusInvariant State.reset

/-- R67, R37, R60: while a command runs neither the command word nor any `F` or `P` register can change. -/
def Obligations.BusyHoldsCommandAndOperands : Prop :=
  ∀ s t : State, s.status.busy = true → step s = .next t → t.status.busy = true →
    t.cmd = s.cmd ∧ t.f = s.f ∧ t.p = s.p

/-- R35, R36, R37, R226: which events set the bits of STATUS: VALID and DONE only a completion, OVR only a discarded
write while Busy, BUSY only the acceptance of a command. -/
def Obligations.StatusBitsRiseOnlyAsStated : Prop :=
  ∀ s t : State, step s = .next t →
    (t.status.valid = true → s.status.valid = false → s.status.busy = true ∧ t.status.busy = false) ∧
    (t.status.done = true → s.status.done = false → s.status.busy = true ∧ t.status.busy = false) ∧
    (t.status.ovr = true → s.status.ovr = false →
      s.status.busy = true ∧ ∃ off w ts, s.env.turns = .hostWrite off 4 w :: ts ∧ off ≠ 0x004 ∧ off ≠ 0x008) ∧
    (t.status.busy = true → s.status.busy = false →
      ∃ w ts, s.env.turns = .hostWrite 0x00C 4 w :: ts ∧ t.cmd = w)

/-- R22, R27, R41: an `F` or `P` register changes only at a completion, by a Host write to one of their words while
Idle, or at Reset. A completion is a turn of the Engine while Busy, or no move scheduled while Busy (log entry 2). -/
def Obligations.RegistersChangeOnlyAsStated : Prop :=
  ∀ s t : State, step s = .next t → t.f ≠ s.f ∨ t.p ≠ s.p →
    (s.status.busy = true ∧ (s.env.turns = [] ∨ ∃ ts, s.env.turns = .engine :: ts)) ∨
    (s.status.busy = false ∧ ∃ off w ts, s.env.turns = .hostWrite off 4 w :: ts ∧ RegisterWord off) ∨
    (∃ ts, s.env.turns = .reset :: ts)

/-- R100: every accepted command completes, whatever admitted accesses the Host makes meanwhile, unless Reset comes
first. The fairness of the Engine is the model's form of it (log entry 2). -/
def Obligations.EveryAcceptedCommandCompletes : Prop :=
  ∀ s : State, s.status.busy = true → (∀ turn ∈ s.env.turns, OrdinaryTurn turn) →
    ∃ k t, k ≤ s.env.turns.length + 1 ∧ Host.Core.run core k s = .next t ∧
      t.status.busy = false ∧ t.status.done = true
end

