-- ==== Sys2Proof/Laws/Field.lean ====
section
/-! SUPPORT. What the pure field functions compute, as integers modulo `m` (`40_field_arithmetic.md` R112 to
R118). -/

namespace Sys2Proof.Laws

open Sys2Proof.Machine

theorem fadd_eq_mod {a b m : Nat} (ha : a < m) (hb : b < m) : fadd a b m = (a + b) % m := by
  unfold fadd
  split
  · rw [Nat.mod_eq_sub_mod (by omega), Nat.mod_eq_of_lt (by omega)]
  · rw [Nat.mod_eq_of_lt (by omega)]

theorem fsub_eq_mod {a b m : Nat} (ha : a < m) (hb : b < m) : fsub a b m = (a + m - b) % m := by
  unfold fsub
  split
  · rw [show a + m - b = a - b + m by omega, Nat.add_mod_right, Nat.mod_eq_of_lt (by omega)]
  · rw [Nat.mod_eq_of_lt (by omega)]

theorem fred_eq_mod {v m : Nat} (hv : v < 2 * m) : fred v m = v % m := by
  unfold fred
  split
  · rw [Nat.mod_eq_sub_mod (by omega), Nat.mod_eq_of_lt (by omega)]
  · rw [Nat.mod_eq_of_lt (by omega)]

theorem fadd_lt {a b m : Nat} (ha : a < m) (hb : b < m) : fadd a b m < m := by
  rw [fadd_eq_mod ha hb]; exact Nat.mod_lt _ (by omega)

theorem fsub_lt {a b m : Nat} (ha : a < m) (hb : b < m) : fsub a b m < m := by
  rw [fsub_eq_mod ha hb]; exact Nat.mod_lt _ (by omega)

theorem fmul_lt {a b m : Nat} (hm : 0 < m) : fmul a b m < m := Nat.mod_lt _ hm

theorem fsqr_lt {a m : Nat} (hm : 0 < m) : fsqr a m < m := fmul_lt hm

theorem fred_lt {v m : Nat} (hv : v < 2 * m) : fred v m < m := by
  rw [fred_eq_mod hv]; exact Nat.mod_lt _ (by omega)

/-- The loop invariant of `powMod`: over the low `i` bits it raises the accumulator to `2^i` and multiplies in
`a` to the value of those bits. -/
theorem powModBits_eq (a e m : Nat) : ∀ i acc, powModBits a e m i acc ≡ acc ^ 2 ^ i * a ^ (e % 2 ^ i) [MOD m]
  | 0, acc => by simp [powModBits, Nat.mod_one, Nat.ModEq.refl]
  | i + 1, acc => by
    have hbit : e % 2 ^ (i + 1) = e % 2 ^ i + 2 ^ i * (e.testBit i).toNat := by
      rw [Nat.mod_pow_succ, Nat.testBit_eq_decide_div_mod_eq]
      rcases Nat.mod_two_eq_zero_or_one (e / 2 ^ i) with h | h <;> simp [h]
    have hsq : fsqr acc m ≡ acc ^ 2 [MOD m] := by rw [pow_two]; exact Nat.mod_modEq _ _
    refine (powModBits_eq a e m i _).trans ?_
    cases hb : e.testBit i
    · simp only [hbit, hb, Bool.false_eq_true, if_false, Bool.toNat_false, Nat.mul_zero, Nat.add_zero]
      rw [pow_succ' 2 i, pow_mul]
      exact (hsq.pow _).mul_right _
    · simp only [hbit, hb, if_true, Bool.toNat_true, Nat.mul_one]
      have h : fmul (fsqr acc m) a m ≡ acc ^ 2 * a [MOD m] := (Nat.mod_modEq _ _).trans (hsq.mul_right _)
      refine ((h.pow _).mul_right _).trans ?_
      rw [mul_pow, ← pow_mul, ← pow_succ', mul_assoc, ← pow_add, Nat.add_comm (2 ^ i)]

theorem powModBits_lt {a e m : Nat} (hm : 0 < m) : ∀ i acc, acc < m → powModBits a e m i acc < m
  | 0, _, h => h
  | i + 1, acc, _ => by
    unfold powModBits
    refine powModBits_lt hm i _ ?_
    split
    · exact fmul_lt hm
    · exact fsqr_lt hm

/-- `powMod` is the power modulo `m`, for an exponent of at most 256 bits. -/
theorem powMod_eq {a e m : Nat} (hm : 0 < m) (he : e < 2 ^ 256) : powMod a e m = a ^ e % m := by
  have start (j : Nat) : (1 % m) ^ 2 ^ j * a ^ e ≡ a ^ e [MOD m] := by
    have h := ((Nat.mod_modEq 1 m).pow (2 ^ j)).mul_right (a ^ e)
    rwa [one_pow, one_mul] at h
  have h := powModBits_eq a e m 256 (1 % m)
  rw [Nat.mod_eq_of_lt he] at h
  have h := h.trans (start 256)
  rwa [Nat.ModEq, Nat.mod_eq_of_lt (powModBits_lt hm _ _ (Nat.mod_lt _ hm))] at h

end Sys2Proof.Laws
end

