-- ==== Sys2Proof/Laws/Prime.lean ====
section
/-! SUPPORT. `p` and `n` are prime (`00_scope.md` R9), by Lucas's criterion with the factorisations of `p - 1` and
`n - 1` and, below them, of their large factors less one. -/

namespace Sys2Proof.Laws

open Sys2Proof.Machine

/-- The arithmetic of a Lucas certificate: the factors multiply to `N - 1`, `a` has order dividing `N - 1` and no
`(N - 1) / q`. -/
def lucasCheck (N a : Nat) (factors : List Nat) : Bool :=
  1 < N && N < 2 ^ 256 && factors.prod == N - 1 && powMod a (N - 1) N == 1
    && factors.all fun q => powMod a ((N - 1) / q) N != 1

/-- A Lucas certificate over prime factors proves its number prime. -/
theorem prime_of_lucas {N : Nat} (a : Nat) (factors : List Nat) (hc : lucasCheck N a factors = true)
    (hp : ∀ q ∈ factors, q.Prime) : N.Prime := by
  simp only [lucasCheck, Bool.and_eq_true, decide_eq_true_eq, beq_iff_eq, List.all_eq_true, bne_iff_ne] at hc
  obtain ⟨⟨⟨⟨h1, h256⟩, hprod⟩, hone⟩, hall⟩ := hc
  have power (e : Nat) (he : e < 2 ^ 256) : powMod a e N = 1 ↔ (a : ZMod N) ^ e = 1 := by
    have hone : 1 % N = 1 := Nat.mod_eq_of_lt h1
    rw [powMod_eq (by omega) he, ← Nat.cast_pow, show (1 : ZMod N) = (1 : Nat) from Nat.cast_one.symm,
      ZMod.natCast_eq_natCast_iff', hone]
  refine lucas_primality N (a : ZMod N) ((power _ (by omega)).1 hone) fun q hq hdvd => ?_
  obtain ⟨q', hq', hdq⟩ := (hq.prime.dvd_prod_iff).1 (hprod ▸ hdvd)
  obtain rfl := (Nat.prime_dvd_prime_iff_eq hq (hp q' hq')).1 hdq
  exact fun h => hall q hq' ((power _ (lt_of_le_of_lt (Nat.div_le_self _ _) (by omega))).2 h)

theorem prime_187019741 : Nat.Prime 187019741 :=
  prime_of_lucas 2 [2, 2, 5, 9350987] (by decide +kernel) (by
    simp only [List.forall_mem_cons, List.not_mem_nil, false_imp_iff, implies_true, and_true]
    refine ⟨by norm_num, by norm_num, by norm_num, by norm_num⟩)

theorem prime_191039911 : Nat.Prime 191039911 :=
  prime_of_lucas 3 [2, 3, 5, 41, 155317] (by decide +kernel) (by
    simp only [List.forall_mem_cons, List.not_mem_nil, false_imp_iff, implies_true, and_true]
    refine ⟨by norm_num, by norm_num, by norm_num, by norm_num, by norm_num⟩)

theorem prime_204061199 : Nat.Prime 204061199 :=
  prime_of_lucas 11 [2, 11, 23, 107, 3769] (by decide +kernel) (by
    simp only [List.forall_mem_cons, List.not_mem_nil, false_imp_iff, implies_true, and_true]
    refine ⟨by norm_num, by norm_num, by norm_num, by norm_num, by norm_num⟩)

theorem prime_311245691 : Nat.Prime 311245691 :=
  prime_of_lucas 2 [2, 5, 7, 17, 29, 29, 311] (by decide +kernel) (by
    simp only [List.forall_mem_cons, List.not_mem_nil, false_imp_iff, implies_true, and_true]
    refine ⟨by norm_num, by norm_num, by norm_num, by norm_num, by norm_num, by norm_num, by norm_num⟩)

theorem prime_622491383 : Nat.Prime 622491383 :=
  prime_of_lucas 5 [2, 311245691] (by decide +kernel) (by
    simp only [List.forall_mem_cons, List.not_mem_nil, false_imp_iff, implies_true, and_true]
    refine ⟨by norm_num, prime_311245691⟩)

theorem prime_34282281433 : Nat.Prime 34282281433 :=
  prime_of_lucas 17 [2, 2, 2, 3, 7, 204061199] (by decide +kernel) (by
    simp only [List.forall_mem_cons, List.not_mem_nil, false_imp_iff, implies_true, and_true]
    refine ⟨by norm_num, by norm_num, by norm_num, by norm_num, by norm_num, prime_204061199⟩)

theorem prime_66417393611 : Nat.Prime 66417393611 :=
  prime_of_lucas 6 [2, 5, 53, 173, 197, 3677] (by decide +kernel) (by
    simp only [List.forall_mem_cons, List.not_mem_nil, false_imp_iff, implies_true, and_true]
    refine ⟨by norm_num, by norm_num, by norm_num, by norm_num, by norm_num, by norm_num⟩)

theorem prime_1002328039319 : Nat.Prime 1002328039319 :=
  prime_of_lucas 19 [2, 126241, 3969899] (by decide +kernel) (by
    simp only [List.forall_mem_cons, List.not_mem_nil, false_imp_iff, implies_true, and_true]
    refine ⟨by norm_num, by norm_num, by norm_num⟩)

theorem prime_11290956913871 : Nat.Prime 11290956913871 :=
  prime_of_lucas 13 [2, 5, 17, 66417393611] (by decide +kernel) (by
    simp only [List.forall_mem_cons, List.not_mem_nil, false_imp_iff, implies_true, and_true]
    refine ⟨by norm_num, by norm_num, by norm_num, prime_66417393611⟩)

theorem prime_46076956964474543 : Nat.Prime 46076956964474543 :=
  prime_of_lucas 5 [2, 23, 18169, 78283, 704251] (by decide +kernel) (by
    simp only [List.forall_mem_cons, List.not_mem_nil, false_imp_iff, implies_true, and_true]
    refine ⟨by norm_num, by norm_num, by norm_num, by norm_num, by norm_num⟩)

theorem prime_208150935158385979 : Nat.Prime 208150935158385979 :=
  prime_of_lucas 2 [2, 3, 11, 43, 127, 3023, 191039911] (by decide +kernel) (by
    simp only [List.forall_mem_cons, List.not_mem_nil, false_imp_iff, implies_true, and_true]
    refine ⟨by norm_num, by norm_num, by norm_num, by norm_num, by norm_num, by norm_num, prime_191039911⟩)

theorem prime_2624747550333869278416773953 : Nat.Prime 2624747550333869278416773953 :=
  prime_of_lucas 7 [2, 2, 2, 2, 2, 2, 3, 3, 1297, 16879, 208150935158385979] (by decide +kernel) (by
    simp only [List.forall_mem_cons, List.not_mem_nil, false_imp_iff, implies_true, and_true]
    refine ⟨by norm_num, by norm_num, by norm_num, by norm_num, by norm_num, by norm_num, by norm_num, by norm_num, by norm_num, by norm_num, prime_208150935158385979⟩)

theorem prime_774023187263532362759620327192479577272145303 : Nat.Prime 774023187263532362759620327192479577272145303 :=
  prime_of_lucas 3 [2, 3, 3, 2411, 34282281433, 11290956913871, 46076956964474543] (by decide +kernel) (by
    simp only [List.forall_mem_cons, List.not_mem_nil, false_imp_iff, implies_true, and_true]
    refine ⟨by norm_num, by norm_num, by norm_num, by norm_num, prime_34282281433, prime_11290956913871, prime_46076956964474543⟩)

theorem prime_835945042244614951780389953367877943453916927241 : Nat.Prime 835945042244614951780389953367877943453916927241 :=
  prime_of_lucas 11 [2, 2, 2, 3, 3, 3, 5, 774023187263532362759620327192479577272145303] (by decide +kernel) (by
    simp only [List.forall_mem_cons, List.not_mem_nil, false_imp_iff, implies_true, and_true]
    refine ⟨by norm_num, by norm_num, by norm_num, by norm_num, by norm_num, by norm_num, by norm_num, prime_774023187263532362759620327192479577272145303⟩)

theorem n_prime : Nat.Prime Config.n :=
  prime_of_lucas 7 [2, 2, 2, 2, 3, 71, 131, 373, 3407, 17449, 38189, 187019741, 622491383, 1002328039319, 2624747550333869278416773953] (by decide +kernel) (by
    simp only [List.forall_mem_cons, List.not_mem_nil, false_imp_iff, implies_true, and_true]
    refine ⟨by norm_num, by norm_num, by norm_num, by norm_num, by norm_num, by norm_num, by norm_num, by norm_num, by norm_num, by norm_num, by norm_num, prime_187019741, prime_622491383, prime_1002328039319, prime_2624747550333869278416773953⟩)

theorem p_prime : Nat.Prime Config.p :=
  prime_of_lucas 6 [2, 3, 5, 5, 17, 257, 641, 1531, 65537, 490463, 6700417, 835945042244614951780389953367877943453916927241] (by decide +kernel) (by
    simp only [List.forall_mem_cons, List.not_mem_nil, false_imp_iff, implies_true, and_true]
    refine ⟨by norm_num, by norm_num, by norm_num, by norm_num, by norm_num, by norm_num, by norm_num, by norm_num, by norm_num, by norm_num, by norm_num, prime_835945042244614951780389953367877943453916927241⟩)

end Sys2Proof.Laws
end

