-- ==== Sys2Proof/Laws/Curve.lean ====
section
/-! SUPPORT. The inverse (`40_field_arithmetic.md` R116) and the point formulas (`41_point_arithmetic.md` R141 to R145)
as equations modulo `p`, and the fact behind R152: the formulas stay on the one curve `y^2 = x^3 - 3x + c` their
operands lie on, so scalar multiplication never divides by zero. -/

namespace Sys2Proof.Laws

open Sys2Proof.Machine Sys2Proof.Safety

theorem p_lt : Config.p < 2 ^ 256 := by decide

theorem n_lt : Config.n < 2 ^ 256 := by decide

theorem lt_two_n : 2 ^ 256 < 2 * Config.n := by decide

theorem modulusValue_prime (m : Modulus) : (modulusValue m).Prime := by
  cases m
  · exact p_prime
  · exact n_prime

theorem modulusValue_lt (m : Modulus) : modulusValue m < 2 ^ 256 := by
  cases m
  · exact p_lt
  · exact n_lt

theorem lt_two_modulusValue (m : Modulus) : 2 ^ 256 < 2 * modulusValue m := by cases m <;> decide

/-! ### The inverse -/

/-- `finv` of a non-zero reduced value is its inverse (R116). -/
theorem finv_of_pos {a m : Nat} (hm : m.Prime) (h256 : m < 2 ^ 256) (h0 : 0 < a) (ha : a < m) :
    ∃ v, finv a m = .ok v ∧ 1 ≤ v ∧ v < m ∧ a * v % m = 1 := by
  have h2 : 2 ≤ m := hm.two_le
  have hcop : Nat.Coprime a m := (Nat.coprime_of_lt_prime (by omega) ha hm).symm
  have hv : powMod a (m - 2) m = a ^ (m - 2) % m := powMod_eq (by omega) (by omega)
  have hinv : a * powMod a (m - 2) m % m = 1 := by
    rw [hv, Nat.mul_mod, Nat.mod_mod, ← Nat.mul_mod, ← pow_succ', show m - 2 + 1 = m - 1 by omega]
    have := Nat.ModEq.pow_totient hcop
    rwa [Nat.totient_prime hm, Nat.ModEq, Nat.mod_eq_of_lt (show 1 < m by omega)] at this
  refine ⟨_, if_neg (by omega), Nat.one_le_iff_ne_zero.2 fun h => ?_, hv ▸ Nat.mod_lt _ (by omega), hinv⟩
  rw [h] at hinv; simp at hinv

/-- The inverse is unique below the modulus (R116). -/
theorem inverse_unique {a m v w : Nat} (hv : v < m) (hw : w < m) (h : a * v % m = 1) (h' : a * w % m = 1) :
    v = w := by
  have hm : 1 % m = 1 := by rw [← h, Nat.mod_mod]
  have hvw : v * (a * w) ≡ v * 1 [MOD m] := Nat.ModEq.mul_left v (by rw [Nat.ModEq, h', hm])
  have hwv : w * (a * v) ≡ w * 1 [MOD m] := Nat.ModEq.mul_left w (by rw [Nat.ModEq, h, hm])
  rw [show w * (a * v) = v * (a * w) by ring] at hwv
  have := hvw.symm.trans hwv
  rwa [mul_one, mul_one, Nat.ModEq, Nat.mod_eq_of_lt hv, Nat.mod_eq_of_lt hw] at this

/-! ### The field functions modulo `p` -/

theorem p_pos : 0 < Config.p := by decide

theorem cast_fadd {a b : Nat} (ha : a < Config.p) (hb : b < Config.p) :
    ((fadd a b Config.p : Nat) : ZMod Config.p) = a + b := by
  rw [fadd_eq_mod ha hb, ZMod.natCast_mod, Nat.cast_add]

theorem cast_fsub {a b : Nat} (ha : a < Config.p) (hb : b < Config.p) :
    ((fsub a b Config.p : Nat) : ZMod Config.p) = a - b := by
  rw [fsub_eq_mod ha hb, ZMod.natCast_mod, Nat.cast_sub (by omega), Nat.cast_add, ZMod.natCast_self, add_zero]

theorem cast_fmul (a b : Nat) : ((fmul a b Config.p : Nat) : ZMod Config.p) = a * b := by
  rw [fmul, ZMod.natCast_mod, Nat.cast_mul]

theorem cast_fsqr (a : Nat) : ((fsqr a Config.p : Nat) : ZMod Config.p) = a ^ 2 := by
  rw [fsqr, cast_fmul, pow_two]

/-- Reduced values are equal iff they are equal modulo `p`. -/
theorem cast_inj {a b : Nat} (ha : a < Config.p) (hb : b < Config.p) :
    (a : ZMod Config.p) = b ↔ a = b := by
  rw [ZMod.natCast_eq_natCast_iff', Nat.mod_eq_of_lt ha, Nat.mod_eq_of_lt hb]

theorem cast_ne_zero {a : Nat} (ha : a < Config.p) (h0 : a ≠ 0) : (a : ZMod Config.p) ≠ 0 := by
  rw [← Nat.cast_zero, ne_eq, cast_inj ha p_pos]; exact h0

theorem two_ne_zero' : (2 : ZMod Config.p) ≠ 0 := by
  rw [show (2 : ZMod Config.p) = (2 : Nat) by norm_cast]; exact cast_ne_zero (by decide) (by decide)

/-- `finv` modulo `p` of a non-zero reduced value, as an equation modulo `p`. -/
theorem finv_p {a : Nat} (ha : a < Config.p) (h0 : a ≠ 0) :
    ∃ v, finv a Config.p = .ok v ∧ v < Config.p ∧ (a : ZMod Config.p) * v = 1 := by
  obtain ⟨v, hv, -, hlt, h1⟩ := finv_of_pos p_prime p_lt (by omega) ha
  refine ⟨v, hv, hlt, ?_⟩
  rw [← Nat.cast_mul, show (1 : ZMod Config.p) = (1 : Nat) by norm_cast, ZMod.natCast_eq_natCast_iff', h1]
  rfl

/-- The curve test is the curve equation (R141). -/
theorem onCurve_iff {x y : Nat} (_hx : x < Config.p) (_hy : y < Config.p) :
    onCurve x y = true ↔ CurveEquation x y := by
  have h1 : fsub (fmul (fsqr x Config.p) x Config.p) (fmul 3 x Config.p) Config.p < Config.p :=
    fsub_lt (fmul_lt p_pos) (fmul_lt p_pos)
  unfold onCurve CurveEquation
  rw [beq_iff_eq, ← cast_inj (fsqr_lt p_pos) (fadd_lt h1 (by decide)), cast_fsqr, cast_fadd h1 (by decide),
    cast_fsub (fmul_lt p_pos) (fmul_lt p_pos), cast_fmul, cast_fmul, cast_fsqr, ← pow_succ]
  norm_cast

/-! ### The formulas -/

/-- The two coordinates `lineResult` gives, modulo `p`. -/
theorem lineResult_eq {l x1 y1 x2 : Nat} (h1 : x1 < Config.p) (hy : y1 < Config.p) (h2 : x2 < Config.p) :
    ∃ x3 y3, lineResult l x1 y1 x2 = .affine x3 y3 ∧ x3 < Config.p ∧ y3 < Config.p ∧
      (x3 : ZMod Config.p) = (l : ZMod Config.p) ^ 2 - x1 - x2 ∧
      (y3 : ZMod Config.p) = (l : ZMod Config.p) * (x1 - x3) - y1 := by
  have hs : fsub (fsqr l Config.p) x1 Config.p < Config.p := fsub_lt (fsqr_lt p_pos) h1
  have hx : fsub (fsub (fsqr l Config.p) x1 Config.p) x2 Config.p < Config.p := fsub_lt hs h2
  refine ⟨_, _, rfl, hx, fsub_lt (fmul_lt p_pos) hy, ?_, ?_⟩
  · rw [cast_fsub hs h2, cast_fsub (fsqr_lt p_pos) h1, cast_fsqr]
  · rw [cast_fsub (fmul_lt p_pos) hy, cast_fmul, cast_fsub h1 hx]

/-- Doubling an affine point with `y` not 0 gives the tangent result (R143). -/
theorem pdbl_affine {x y : Nat} (hx : x < Config.p) (hy : y < Config.p) (h0 : y ≠ 0) :
    ∃ x' y', pdbl (.affine x y) = .ok (.affine x' y') ∧ x' < Config.p ∧ y' < Config.p ∧
      IsTangentResult x y x' y' := by
  have hne : fmul 2 y Config.p ≠ 0 := by
    rw [ne_eq, ← cast_inj (fmul_lt p_pos) p_pos, cast_fmul, Nat.cast_zero]
    have : Fact (Nat.Prime Config.p) := ⟨p_prime⟩
    exact mul_ne_zero (by exact_mod_cast two_ne_zero') (cast_ne_zero hy h0)
  obtain ⟨v, hv, -, hinv⟩ := finv_p (fmul_lt p_pos) hne
  obtain ⟨x3, y3, he, hx3, hy3, hxe, hye⟩ := lineResult_eq
    (l := fmul (fsub (fmul 3 (fsqr x Config.p) Config.p) 3 Config.p) v Config.p) hx hy hx
  refine ⟨x3, y3, ?_, hx3, hy3, _, ?_, ?_, hye⟩
  · simp only [pdbl, h0, if_false, hv, bind, Except.bind, pure, Except.pure, he]
  · rw [cast_fmul] at hinv
    rw [cast_fmul, cast_fsub (fmul_lt p_pos) (by decide), cast_fmul, cast_fsqr]
    push_cast at hinv ⊢
    linear_combination (3 * (x : ZMod Config.p) ^ 2 - 3) * hinv
  · rw [hxe]; ring

/-- Adding affine points with different `x` gives the chord result (R144). -/
theorem padd_chord {x1 y1 x2 y2 : Nat} (h1 : x1 < Config.p) (hy1 : y1 < Config.p) (h2 : x2 < Config.p)
    (hy2 : y2 < Config.p) (hne : x1 ≠ x2) :
    ∃ x3 y3, padd (.affine x1 y1) (.affine x2 y2) = .ok (.affine x3 y3) ∧ x3 < Config.p ∧ y3 < Config.p ∧
      IsChordResult x1 y1 x2 y2 x3 y3 := by
  have hd : fsub x2 x1 Config.p ≠ 0 := by
    rw [ne_eq, ← cast_inj (fsub_lt h2 h1) p_pos, cast_fsub h2 h1, Nat.cast_zero, sub_eq_zero, cast_inj h2 h1]
    exact fun h => hne h.symm
  obtain ⟨v, hv, -, hinv⟩ := finv_p (fsub_lt h2 h1) hd
  obtain ⟨x3, y3, he, hx3, hy3, hxe, hye⟩ := lineResult_eq
    (l := fmul (fsub y2 y1 Config.p) v Config.p) h1 hy1 h2
  refine ⟨x3, y3, ?_, hx3, hy3, _, ?_, hxe, hye⟩
  · simp only [padd, hne, false_and, if_false, hv, bind, Except.bind, pure, Except.pure, he]
  · rw [cast_fsub h2 h1] at hinv
    rw [cast_fmul, cast_fsub hy2 hy1]
    linear_combination ((y2 : ZMod Config.p) - y1) * hinv

/-! ### One curve -/

/-- The point has coordinates in `[0, p)` and lies on `y^2 = x^3 - 3x + c`, or is the identity. -/
def OnCurveWith (c : ZMod Config.p) : CurvePoint → Prop
  | .identity => True
  | .affine x y => x < Config.p ∧ y < Config.p ∧ (y : ZMod Config.p) ^ 2 = (x : ZMod Config.p) ^ 3 - 3 * x + c

/-- Every pair of coordinates lies on some such curve. -/
theorem exists_onCurveWith {x y : Nat} (hx : x < Config.p) (hy : y < Config.p) :
    ∃ c, OnCurveWith c (.affine x y) :=
  ⟨(y : ZMod Config.p) ^ 2 - (x : ZMod Config.p) ^ 3 + 3 * x, hx, hy, by ring⟩

/-- The tangent result lies on the curve of its point. -/
theorem tangent_onCurve {c : ZMod Config.p} {x y x' y' : Nat}
    (h : (y : ZMod Config.p) ^ 2 = (x : ZMod Config.p) ^ 3 - 3 * x + c) (ht : IsTangentResult x y x' y') :
    (y' : ZMod Config.p) ^ 2 = (x' : ZMod Config.p) ^ 3 - 3 * x' + c := by
  obtain ⟨l, hl, hx, hy⟩ := ht
  rw [hy]
  linear_combination h + ((x' : ZMod Config.p) - x) * hl - ((x' : ZMod Config.p) - x) ^ 2 * hx

/-- The chord result lies on the curve of its two points. -/
theorem chord_onCurve {c : ZMod Config.p} {x1 y1 x2 y2 x3 y3 : Nat} (h1 : x1 < Config.p) (h2 : x2 < Config.p)
    (hne : x1 ≠ x2) (hc1 : (y1 : ZMod Config.p) ^ 2 = (x1 : ZMod Config.p) ^ 3 - 3 * x1 + c)
    (hc2 : (y2 : ZMod Config.p) ^ 2 = (x2 : ZMod Config.p) ^ 3 - 3 * x2 + c)
    (ht : IsChordResult x1 y1 x2 y2 x3 y3) :
    (y3 : ZMod Config.p) ^ 2 = (x3 : ZMod Config.p) ^ 3 - 3 * x3 + c := by
  have : Fact (Nat.Prime Config.p) := ⟨p_prime⟩
  obtain ⟨l, hl, hx, hy⟩ := ht
  have hd : (x2 : ZMod Config.p) - x1 ≠ 0 := by
    rw [ne_eq, sub_eq_zero, cast_inj h2 h1]; exact fun h => hne h.symm
  apply mul_left_cancel₀ hd
  have hy2 : (y2 : ZMod Config.p) = y1 + l * (x2 - x1) := by linear_combination -hl
  rw [hy2] at hc2
  rw [hy]
  linear_combination ((x2 : ZMod Config.p) - x3) * hc1 + ((x3 : ZMod Config.p) - x1) * hc2
    - ((x2 : ZMod Config.p) - x1) * (x3 - x1) * (x3 - x2) * hx

/-- Doubling never raises and stays on the curve (R143, R146 (a), R151). -/
theorem pdbl_onCurve {c : ZMod Config.p} {q : CurvePoint} (h : OnCurveWith c q) :
    ∃ r, pdbl q = .ok r ∧ OnCurveWith c r := by
  cases q with
  | identity => exact ⟨.identity, rfl, trivial⟩
  | affine x y =>
    obtain ⟨hx, hy, hc⟩ := h
    by_cases h0 : y = 0
    · exact ⟨.identity, by simp [pdbl, h0], trivial⟩
    · obtain ⟨x', y', he, hx', hy', ht⟩ := pdbl_affine hx hy h0
      exact ⟨_, he, hx', hy', tangent_onCurve hc ht⟩

/-- Two points of one curve with equal `x` have equal or opposite `y` (R152). -/
theorem equal_or_opposite {c : ZMod Config.p} {x y1 y2 : Nat} (hy1 : y1 < Config.p) (hy2 : y2 < Config.p)
    (hc1 : (y1 : ZMod Config.p) ^ 2 = (x : ZMod Config.p) ^ 3 - 3 * x + c)
    (hc2 : (y2 : ZMod Config.p) ^ 2 = (x : ZMod Config.p) ^ 3 - 3 * x + c) :
    y1 = y2 ∨ fadd y1 y2 Config.p = 0 := by
  have : Fact (Nat.Prime Config.p) := ⟨p_prime⟩
  rcases sq_eq_sq_iff_eq_or_eq_neg.1 (hc1.trans hc2.symm) with h | h
  · exact .inl ((cast_inj hy1 hy2).1 h)
  · right
    rw [← cast_inj (fadd_lt hy1 hy2) p_pos, cast_fadd hy1 hy2, h, neg_add_cancel, Nat.cast_zero]

/-- Addition of two points of one curve never raises and stays on it (R144, R146 (a)). -/
theorem padd_onCurve {c : ZMod Config.p} {q r : CurvePoint} (hq : OnCurveWith c q) (hr : OnCurveWith c r) :
    ∃ t, padd q r = .ok t ∧ OnCurveWith c t := by
  cases q with
  | identity => exact ⟨r, rfl, hr⟩
  | affine x1 y1 =>
    cases r with
    | identity => exact ⟨_, rfl, hq⟩
    | affine x2 y2 =>
      obtain ⟨hx1, hy1, hc1⟩ := hq
      obtain ⟨hx2, hy2, hc2⟩ := hr
      by_cases hx : x1 = x2
      · subst hx
        by_cases ho : fadd y1 y2 Config.p = 0
        · exact ⟨.identity, by simp [padd, ho], trivial⟩
        · obtain rfl := (equal_or_opposite hy1 hy2 hc1 hc2).resolve_right ho
          obtain ⟨t, ht, hct⟩ := pdbl_onCurve (q := .affine x1 y1) ⟨hx1, hy1, hc1⟩
          exact ⟨t, by simp [padd, ho, ht], hct⟩
      · obtain ⟨x3, y3, he, hx3, hy3, ht⟩ := padd_chord hx1 hy1 hx2 hy2 hx
        exact ⟨_, he, hx3, hy3, chord_onCurve hx1 hx2 hx hc1 hc2 ht⟩

theorem pmulBits_onCurve {c : ZMod Config.p} (k : Nat) {q : CurvePoint} (hq : OnCurveWith c q) :
    ∀ i acc, OnCurveWith c acc → ∃ r, pmulBits k q i acc = .ok r ∧ OnCurveWith c r
  | 0, acc, h => ⟨acc, rfl, h⟩
  | i + 1, acc, h => by
    obtain ⟨d, hd, hcd⟩ := pdbl_onCurve h
    cases hb : k.testBit i
    · obtain ⟨r, hr, hcr⟩ := pmulBits_onCurve k hq i d hcd
      exact ⟨r, by simp [pmulBits, hd, hb, hr, bind, Except.bind], hcr⟩
    · obtain ⟨t, ht, hct⟩ := padd_onCurve hcd hq
      obtain ⟨r, hr, hcr⟩ := pmulBits_onCurve k hq i t hct
      exact ⟨r, by simp [pmulBits, hd, hb, ht, hr, bind, Except.bind], hcr⟩

/-- Scalar multiplication never raises and stays on the curve of its point (R145, R146 (a), R152). -/
theorem pmul_onCurve {c : ZMod Config.p} (k : Nat) {q : CurvePoint} (hq : OnCurveWith c q) :
    ∃ r, pmul k q = .ok r ∧ OnCurveWith c r :=
  pmulBits_onCurve k hq 256 .identity trivial

/-- An accepted point register denotes a point of some such curve. -/
theorem accepted_onCurveWith {pt : Point} (h : AcceptedPoint pt) : ∃ c, OnCurveWith c (pointValue pt) := by
  unfold pointValue
  split
  · exact ⟨0, trivial⟩
  · next hi => exact exists_onCurveWith (h.resolve_left hi).1 (h.resolve_left hi).2

end Sys2Proof.Laws
end

