-- ==== Sys2Proof/Laws/Decode.lean ====
section
/-! SUPPORT. The fields of a word (`30_encoding.md` R80) and the formats on encoded fields (R83). -/

namespace Sys2Proof.Laws

/-- The fields of a word built from fields are those fields. -/
@[simp] theorem fieldsOfWord_wordOfFields (fl : Fields) : fieldsOfWord (wordOfFields fl) = fl := by
  cases fl
  simp only [fieldsOfWord, wordOfFields, Fields.mk.injEq]
  refine ⟨?_, ?_, ?_, ?_, ?_, ?_, ?_⟩ <;>
  · apply BitVec.eq_of_getLsbD_eq
    intro i hi
    simp only [BitVec.getLsbD_extractLsb', BitVec.getLsbD_append, hi, decide_true, Bool.true_and]
    (repeat' split) <;> first | omega | (congr 1; omega)

/-- A word is built from its fields. -/
@[simp] theorem wordOfFields_fieldsOfWord (w : Word) : wordOfFields (fieldsOfWord w) = w := by
  apply BitVec.eq_of_getLsbD_eq
  intro i hi
  simp only [fieldsOfWord, wordOfFields, BitVec.getLsbD_extractLsb', BitVec.getLsbD_append]
  (repeat' split) <;> (rw [decide_eq_true (by omega), Bool.true_and]; congr 1; omega)

@[simp] theorem modField_modBits (m : Modulus) : modField (modBits m) = .ok m := by cases m <;> rfl

theorem indexBits_toNat {i : Nat} (h : i < 16) : (indexBits i).toNat = i := by
  rw [indexBits, BitVec.toNat_ofNat, Nat.mod_eq_of_lt h]

theorem fField_indexBits {i : Nat} (h : isFIndex i = true) : fField (indexBits i) = .ok i := by
  have hlt : i < 8 := by simpa [isFIndex] using h
  rw [fField, indexBits_toNat (by omega), if_pos h]

theorem pField_indexBits {i : Nat} (h : isPIndex i = true) : pField (indexBits i) = .ok i := by
  have hlt : i < 4 := by simpa [isPIndex] using h
  rw [pField, indexBits_toNat (by omega), if_pos h]

@[simp] theorem zeroField_zero : zeroField 0#4 = .ok () := rfl

/-- What a field decoder accepts, said back as the field's bits. -/
theorem zeroField_ok {x : BitVec 4} (h : zeroField x = .ok ()) : x = 0#4 := by
  unfold zeroField at h; split at h
  · assumption
  · cases h

theorem modField_ok {x : BitVec 4} {m : Modulus} (h : modField x = .ok m) : x = modBits m := by
  unfold modField at h; split at h
  · cases h; assumption
  · split at h <;> cases h; assumption

theorem fField_ok {x : BitVec 4} {i : Nat} (h : fField x = .ok i) : x = indexBits i ∧ isFIndex i = true := by
  unfold fField at h; split at h
  · cases h; exact ⟨by simp [indexBits], by assumption⟩
  · cases h

theorem pField_ok {x : BitVec 4} {i : Nat} (h : pField x = .ok i) : x = indexBits i ∧ isPIndex i = true := by
  unfold pField at h; split at h
  · cases h; exact ⟨by simp [indexBits], by assumption⟩
  · cases h

end Sys2Proof.Laws
end

