-- ==== Sys2Proof/Laws/State.lean ====
section
/-! SUPPORT. The fields of a state after each named operation: one lemma per field, so that no proof unfolds a record
update. -/

namespace Sys2Proof.Laws

open Sys2Proof.Machine

variable (s : State)

/-! ### writeF -/

@[simp] theorem writeF_f (i : Nat) (v : U256) : (writeF s i v).f = s.f.setIfInBounds i v := rfl
@[simp] theorem writeF_p (i : Nat) (v : U256) : (writeF s i v).p = s.p := rfl
@[simp] theorem writeF_ie (i : Nat) (v : U256) : (writeF s i v).ie = s.ie := rfl
@[simp] theorem writeF_status (i : Nat) (v : U256) : (writeF s i v).status = s.status := rfl
@[simp] theorem writeF_cmd (i : Nat) (v : U256) : (writeF s i v).cmd = s.cmd := rfl
@[simp] theorem writeF_env (i : Nat) (v : U256) : (writeF s i v).env = s.env := rfl

/-! ### writeP -/

@[simp] theorem writeP_f (i : Nat) (pt : Point) : (writeP s i pt).f = s.f := rfl
@[simp] theorem writeP_p (i : Nat) (pt : Point) : (writeP s i pt).p = s.p.setIfInBounds i pt := rfl
@[simp] theorem writeP_ie (i : Nat) (pt : Point) : (writeP s i pt).ie = s.ie := rfl
@[simp] theorem writeP_status (i : Nat) (pt : Point) : (writeP s i pt).status = s.status := rfl
@[simp] theorem writeP_cmd (i : Nat) (pt : Point) : (writeP s i pt).cmd = s.cmd := rfl
@[simp] theorem writeP_env (i : Nat) (pt : Point) : (writeP s i pt).env = s.env := rfl

/-! ### accept -/

@[simp] theorem accept_f (w : Word) : (accept w s).f = s.f := rfl
@[simp] theorem accept_p (w : Word) : (accept w s).p = s.p := rfl
@[simp] theorem accept_ie (w : Word) : (accept w s).ie = s.ie := rfl
@[simp] theorem accept_status (w : Word) : (accept w s).status = statusAccepted s.status := rfl
@[simp] theorem accept_cmd (w : Word) : (accept w s).cmd = w := rfl
@[simp] theorem accept_env (w : Word) : (accept w s).env = s.env := rfl

/-! ### raiseError -/

@[simp] theorem raiseError_f (e : CmdError) : (raiseError e s).f = s.f := rfl
@[simp] theorem raiseError_p (e : CmdError) : (raiseError e s).p = s.p := rfl
@[simp] theorem raiseError_ie (e : CmdError) : (raiseError e s).ie = s.ie := rfl
@[simp] theorem raiseError_status (e : CmdError) : (raiseError e s).status = statusErred e s.status := rfl
@[simp] theorem raiseError_cmd (e : CmdError) : (raiseError e s).cmd = s.cmd := rfl
@[simp] theorem raiseError_env (e : CmdError) : (raiseError e s).env = s.env := rfl

/-! ### completeOk -/

@[simp] theorem completeOk_f (v : Bool) : (completeOk v s).f = s.f := rfl
@[simp] theorem completeOk_p (v : Bool) : (completeOk v s).p = s.p := rfl
@[simp] theorem completeOk_ie (v : Bool) : (completeOk v s).ie = s.ie := rfl
@[simp] theorem completeOk_status (v : Bool) : (completeOk v s).status = statusCompleted v s.status := rfl
@[simp] theorem completeOk_cmd (v : Bool) : (completeOk v s).cmd = s.cmd := rfl
@[simp] theorem completeOk_env (v : Bool) : (completeOk v s).env = s.env := rfl

/-! ### withTurns -/

@[simp] theorem withTurns_f (ts : List Turn) : (withTurns ts s).f = s.f := rfl
@[simp] theorem withTurns_p (ts : List Turn) : (withTurns ts s).p = s.p := rfl
@[simp] theorem withTurns_ie (ts : List Turn) : (withTurns ts s).ie = s.ie := rfl
@[simp] theorem withTurns_status (ts : List Turn) : (withTurns ts s).status = s.status := rfl
@[simp] theorem withTurns_cmd (ts : List Turn) : (withTurns ts s).cmd = s.cmd := rfl
@[simp] theorem withTurns_env (ts : List Turn) : (withTurns ts s).env = ⟨ts, s.env.lastRead, s.env.draws⟩ := rfl

/-! ### resetMachine -/

@[simp] theorem resetMachine_f : (resetMachine s).f = State.reset.f := rfl
@[simp] theorem resetMachine_p : (resetMachine s).p = State.reset.p := rfl
@[simp] theorem resetMachine_ie : (resetMachine s).ie = false := rfl
@[simp] theorem resetMachine_status : (resetMachine s).status = Status.reset := rfl
@[simp] theorem resetMachine_cmd : (resetMachine s).cmd = 0#32 := rfl
@[simp] theorem resetMachine_env : (resetMachine s).env = s.env := rfl

/-! ### irq -/

/-- `irq` is CTRL.IE and STATUS.DONE (R39, R226). -/
@[simp] theorem irq_eq : irq s = (s.ie && s.status.done) := rfl

/-! ### The STATUS operations -/

variable (st : Status)

@[simp] theorem statusAccepted_busy : (statusAccepted st).busy = true := rfl
@[simp] theorem statusAccepted_done : (statusAccepted st).done = false := rfl
@[simp] theorem statusAccepted_valid : (statusAccepted st).valid = false := rfl
@[simp] theorem statusAccepted_ovr : (statusAccepted st).ovr = st.ovr := rfl
@[simp] theorem statusAccepted_err : (statusAccepted st).err = none := rfl

@[simp] theorem statusCompleted_busy (v : Bool) : (statusCompleted v st).busy = false := rfl
@[simp] theorem statusCompleted_done (v : Bool) : (statusCompleted v st).done = true := rfl
@[simp] theorem statusCompleted_valid (v : Bool) : (statusCompleted v st).valid = v := rfl
@[simp] theorem statusCompleted_ovr (v : Bool) : (statusCompleted v st).ovr = st.ovr := rfl
@[simp] theorem statusCompleted_err (v : Bool) : (statusCompleted v st).err = none := rfl

@[simp] theorem statusErred_busy (e : CmdError) : (statusErred e st).busy = false := rfl
@[simp] theorem statusErred_done (e : CmdError) : (statusErred e st).done = true := rfl
@[simp] theorem statusErred_valid (e : CmdError) : (statusErred e st).valid = false := rfl
@[simp] theorem statusErred_ovr (e : CmdError) : (statusErred e st).ovr = st.ovr := rfl
@[simp] theorem statusErred_err (e : CmdError) : (statusErred e st).err = some e := rfl

@[simp] theorem statusOverrun_busy : (statusOverrun st).busy = st.busy := rfl
@[simp] theorem statusOverrun_done : (statusOverrun st).done = st.done := rfl
@[simp] theorem statusOverrun_valid : (statusOverrun st).valid = st.valid := rfl
@[simp] theorem statusOverrun_ovr : (statusOverrun st).ovr = true := rfl
@[simp] theorem statusOverrun_err : (statusOverrun st).err = st.err := rfl

@[simp] theorem statusWritten_busy (w : Word) : (statusWritten w st).busy = st.busy := rfl
@[simp] theorem statusWritten_done (w : Word) : (statusWritten w st).done = (st.done && !w.getLsbD 1) := rfl
@[simp] theorem statusWritten_valid (w : Word) : (statusWritten w st).valid = st.valid := rfl
@[simp] theorem statusWritten_ovr (w : Word) : (statusWritten w st).ovr = (st.ovr && !w.getLsbD 3) := rfl
@[simp] theorem statusWritten_err (w : Word) : (statusWritten w st).err = st.err := rfl

end Sys2Proof.Laws
end

