-- ==== Sys2Proof/Laws/Ops.lean ====
section
/-! SUPPORT. What each shared operation can do: register access, the operand checks, the completion of a command, and,
over all commands, the one form every meaning has. -/

namespace Sys2Proof.Laws

open Sys2Proof.Machine Sys2Proof.Safety

/-! ### Register access -/

@[simp] theorem readF_fin (s : State) (i : Fin 8) : readF s i = s.f[i.val] := by simp [readF]

@[simp] theorem readP_fin (s : State) (i : Fin 4) : readP s i = s.p[i.val] := by simp [readP]

theorem writeF_fin (s : State) (i : Fin 8) (v : U256) : writeF s i v = { s with f := s.f.set i v } := by
  unfold writeF; congr 1; ext j; simp [Vector.getElem_setIfInBounds, Vector.getElem_set]

theorem writeP_fin (s : State) (i : Fin 4) (pt : Point) : writeP s i pt = { s with p := s.p.set i pt } := by
  unfold writeP; congr 1; apply Vector.ext; intro j _; simp [Vector.getElem_setIfInBounds, Vector.getElem_set]

@[simp] theorem fValue_fin (s : State) (i : Fin 8) : fValue s i = s.f[i.val].toNat := by simp [fValue]

/-! ### The checks -/

@[simp] theorem require_true (e : CmdError) : require true e = .ok () := rfl

@[simp] theorem require_false (e : CmdError) : require false e = .error e := rfl

theorem requireLegal_of_wellFormed {i : Instr} (h : WellFormed i) : requireLegal i = .ok () := by
  simp only [requireLegal, h, require_true]

theorem requireLegal_of_not {i : Instr} (h : ¬WellFormed i) : requireLegal i = .error .illegalCommand := by
  simp only [requireLegal, Bool.eq_false_iff.2 h, require_false]

/-- A reduced operand is its value; one that is not raises `OperandRange` (R111). -/
theorem reducedOperand_eq (s : State) (m i : Nat) :
    reducedOperand s m i = if fValue s i < m then .ok (fValue s i) else .error .operandRange := by
  unfold reducedOperand require
  by_cases h : fValue s i < m <;> simp [h, bind, Except.bind, pure, Except.pure]

/-- An accepted point operand is its value; one that is not raises `OperandRange` (R147). -/
theorem pointOperand_of_accepted {s : State} {i : Nat} (h : AcceptedPoint (readP s i)) :
    pointOperand s i = .ok (pointValue (readP s i)) := by
  have : ((readP s i).inf || coordsInRange (readP s i)) = true := by
    simpa [coordsInRange, AcceptedPoint] using h
  simp [pointOperand, this, bind, Except.bind, pure, Except.pure]

theorem pointOperand_of_not {s : State} {i : Nat} (h : ¬AcceptedPoint (readP s i)) :
    pointOperand s i = .error .operandRange := by
  have : ((readP s i).inf || coordsInRange (readP s i)) = false := by
    rw [Bool.eq_false_iff]; simpa [coordsInRange, AcceptedPoint] using h
  simp [pointOperand, this, bind, Except.bind]

theorem pointValue_of_inf {pt : Point} (h : pt.inf = true) : pointValue pt = .identity := by simp [pointValue, h]

theorem pointValue_of_affine {pt : Point} (h : pt.inf = false) :
    pointValue pt = .affine pt.x.toNat pt.y.toNat := by simp [pointValue, h]

/-! ### Completion (R100) -/

@[simp] theorem finish_error (e : CmdError) (s : State) : finish (.error e) s = failed s e := rfl

@[simp] theorem finish_flag (v : Bool) (s : State) : finish (.ok (.flag v)) s = checked s v := rfl

@[simp] theorem finish_toF (d : Fin 8) (v : Nat) (s : State) : finish (.ok (.toF d v)) s = wroteF s d v := by
  simp [finish, writeF_fin, completeOk, wroteF, statusCompleted]

@[simp] theorem finish_toP (d : Fin 4) (pt : CurvePoint) (s : State) :
    finish (.ok (.toP d pt)) s = wroteP s d (pointOf pt) := by
  simp [finish, writeP_fin, completeOk, wroteP, statusCompleted]

/-- Everything a completion leaves alone, and what it always does. -/
theorem finish_frame (r : Except CmdError CmdResult) (s : State) :
    (finish r s).ie = s.ie ∧ (finish r s).cmd = s.cmd ∧ (finish r s).env = s.env ∧
      (finish r s).status.ovr = s.status.ovr ∧ (finish r s).status.busy = false ∧
      (finish r s).status.done = true := by
  rcases r with e | ⟨d, v⟩ | ⟨d, pt⟩ | v <;> simp [finish]

/-- VALID and ERR after a completion: an error and VALID 1 exclude each other (R35). -/
theorem finish_valid_err (r : Except CmdError CmdResult) (s : State) :
    (finish r s).status.err ≠ none → (finish r s).status.valid = false := by
  rcases r with e | ⟨d, v⟩ | ⟨d, pt⟩ | v <;> simp [finish]

/-! ### Every meaning has one form -/

/-- What a command yields on the register files: its checks and its result, before the completion. -/
theorem exec_eq_finish (i : Instr) (s : State) :
    ∃ r, exec i s = .next (finish r s) ∧
      (∀ d v, r = .ok (.toF d v) → fDestination i = some d) ∧
      (∀ d pt, r = .ok (.toP d pt) → pDestination i = some d) := by
  cases i <;>
  · refine ⟨_, rfl, ?_, ?_⟩ <;> intro d v h <;>
      simp only [bind, Except.bind, pure, Except.pure] at h <;>
      (repeat' split at h) <;> simp_all [fDestination, pDestination]

end Sys2Proof.Laws
end

