-- ==== Sys2Proof/Laws/PerInstr.lean ====
section
/-! SUPPORT. A statement about each command as syntax, made command by command: the seven fields of the word that spells
it are the fields its format gives it (`30_encoding.md` R80, R83). -/

namespace Sys2Proof.Laws.EncodeFields

/-- The fields of the command's word are the fields of the command's format. -/
def Statement (i : Instr) : Prop := fieldsOfWord (encode i) = fieldsOf i

theorem fadd (m : Modulus) (d a b : Nat) : Statement (.fadd m d a b) := fieldsOfWord_wordOfFields _
theorem fsub (m : Modulus) (d a b : Nat) : Statement (.fsub m d a b) := fieldsOfWord_wordOfFields _
theorem fmul (m : Modulus) (d a b : Nat) : Statement (.fmul m d a b) := fieldsOfWord_wordOfFields _
theorem fsqr (m : Modulus) (d a : Nat) : Statement (.fsqr m d a) := fieldsOfWord_wordOfFields _
theorem finv (m : Modulus) (d a : Nat) : Statement (.finv m d a) := fieldsOfWord_wordOfFields _
theorem fred (m : Modulus) (d a : Nat) : Statement (.fred m d a) := fieldsOfWord_wordOfFields _
theorem padd (d a b : Nat) : Statement (.padd d a b) := fieldsOfWord_wordOfFields _
theorem pdbl (d a : Nat) : Statement (.pdbl d a) := fieldsOfWord_wordOfFields _
theorem pmul (d a b : Nat) : Statement (.pmul d a b) := fieldsOfWord_wordOfFields _
theorem pchk (a : Nat) : Statement (.pchk a) := fieldsOfWord_wordOfFields _
theorem pldg (d : Nat) : Statement (.pldg d) := fieldsOfWord_wordOfFields _
theorem sigchk (a b : Nat) : Statement (.sigchk a b) := fieldsOfWord_wordOfFields _
theorem keychk (a : Nat) : Statement (.keychk a) := fieldsOfWord_wordOfFields _
theorem verify (a b c e : Nat) : Statement (.verify a b c e) := fieldsOfWord_wordOfFields _

end Sys2Proof.Laws.EncodeFields
end

