-- ==== Sys2Proof/Laws/Words.lean ====
section
/-! SUPPORT. The words and bytes of a 256-bit value in the window's order (`20_memory.md` R52, R53). -/

namespace Sys2Proof.Laws

open Sys2Proof.Machine

/-- The bits of a value after one of its words is replaced: exactly bits `[255-32j : 224-32j]` are the word's. -/
theorem getLsbD_setWord (v : U256) (w : Word) {j k : Nat} (hj : j < 8) (hk : k < 256) :
    (setWord v j w).getLsbD k
      = if 224 - 32 * j ≤ k ∧ k < 256 - 32 * j then w.getLsbD (k - (224 - 32 * j)) else v.getLsbD k := by
  have hones : ∀ i, (0xFFFFFFFF#32).getLsbD i = decide (i < 32) := fun i => by
    rw [show 0xFFFFFFFF#32 = BitVec.allOnes 32 from rfl, BitVec.getLsbD_allOnes]
  unfold setWord
  simp only [BitVec.getLsbD_or, BitVec.getLsbD_and, BitVec.getLsbD_not, BitVec.getLsbD_shiftLeft,
    BitVec.getLsbD_setWidth, hones, hk, decide_true, Bool.true_and]
  by_cases hlo : k < 224 - 32 * j
  · simp [hlo, show ¬(224 - 32 * j ≤ k) by omega]
  · by_cases hhi : k < 256 - 32 * j
    · simp [hlo, hhi, show 224 - 32 * j ≤ k by omega, show k - (224 - 32 * j) < 32 by omega,
        show k - (224 - 32 * j) < 256 by omega]
    · have : 32 ≤ k - (224 - 32 * j) := by omega
      simp [hlo, hhi, show ¬(k - (224 - 32 * j) < 32) by omega, BitVec.getLsbD_of_ge w _ this]

/-- A word reads back as it was written. -/
theorem wordOf_setWord_same (v : U256) (w : Word) {j : Nat} (hj : j < 8) : wordOf (setWord v j w) j = w := by
  apply BitVec.eq_of_getLsbD_eq
  intro k hk
  rw [wordOf, BitVec.getLsbD_extractLsb', getLsbD_setWord v w hj (by omega)]
  simp [hk, show 224 - 32 * j + k < 256 - 32 * j by omega]

/-- The other words are unchanged. -/
theorem wordOf_setWord_other (v : U256) (w : Word) {j j' : Nat} (hj : j < 8) (hj' : j' < 8) (h : j' ≠ j) :
    wordOf (setWord v j w) j' = wordOf v j' := by
  apply BitVec.eq_of_getLsbD_eq
  intro k hk
  rw [wordOf, wordOf, BitVec.getLsbD_extractLsb', BitVec.getLsbD_extractLsb', getLsbD_setWord v w hj (by omega),
    if_neg (by omega)]

/-- Byte `k` of a value is byte `k mod 4` of its word `k / 4`. -/
theorem wordByte_wordOf (v : U256) {k : Nat} (hk : k < 32) : wordByte (wordOf v (k / 4)) (k % 4) = byteOf v k := by
  apply BitVec.eq_of_getLsbD_eq
  intro i hi
  rw [wordByte, wordOf, byteOf, BitVec.getLsbD_extractLsb', BitVec.getLsbD_extractLsb', BitVec.getLsbD_extractLsb']
  simp [hi, show 24 - 8 * (k % 4) + i < 32 by omega,
    show 224 - 32 * (k / 4) + (24 - 8 * (k % 4) + i) = 248 - 8 * k + i by omega]

end Sys2Proof.Laws
end

