-- ==== Sys2Proof/Laws/Window.lean ====
section
/-! SUPPORT. The address map region by region (`20_memory.md` R51), and what an access can do. -/

namespace Sys2Proof.Laws

open Sys2Proof.Machine Sys2Proof.Safety

theorem admitted_iff (off width : Nat) : admitted off width = true ↔ Admitted off width := by
  simp [admitted, Admitted, and_assoc]

/-! ### The address map -/

/-- The offsets that hold a location: R51's table, read from the content to the offset. -/
def OffsetOf (off : Nat) : Location → Prop
  | .id => off = 0x000
  | .ctrl => off = 0x004
  | .status => off = 0x008
  | .cmd => off = 0x00C
  | .fWord i j => i < 8 ∧ j < 8 ∧ off = 0x100 + 0x20 * i + 4 * j
  | .xWord i j => i < 4 ∧ j < 8 ∧ off = 0x200 + 0x80 * i + 4 * j
  | .yWord i j => i < 4 ∧ j < 8 ∧ off = 0x200 + 0x80 * i + 0x20 + 4 * j
  | .flags i => i < 4 ∧ off = 0x200 + 0x80 * i + 0x40
  | .rom k j => k < 5 ∧ j < 8 ∧ off = 0x400 + 0x20 * k + 4 * j
  | .reserved => Reserved off

/-- Every word offset, said back from the location the map gives it: the inversion of `locate`. -/
theorem locate_inv {off : Nat} {l : Location} (ha : off % 4 = 0) (h : locate off = l) : OffsetOf off l := by
  unfold locate pointLocation at h
  split_ifs at h <;> subst h <;> simp only [OffsetOf] <;> omega

/-- An offset holds one location. -/
theorem offsetOf_unique {off : Nat} {l l' : Location} (h : OffsetOf off l) (h' : OffsetOf off l') : l = l' := by
  cases l <;> cases l' <;> simp only [OffsetOf, Reserved] at h h' <;>
    first | rfl | omega | (congr 1 <;> omega)

/-- The map gives an offset the location it holds. -/
theorem locate_eq {off : Nat} {l : Location} (ha : off % 4 = 0) (h : OffsetOf off l) : locate off = l :=
  offsetOf_unique (locate_inv ha rfl) h

theorem locate_fWord {i j : Nat} (hi : i < 8) (hj : j < 8) : locate (0x100 + 0x20 * i + 4 * j) = .fWord i j :=
  locate_eq (by omega) ⟨hi, hj, rfl⟩

theorem locate_xWord {i j : Nat} (hi : i < 4) (hj : j < 8) : locate (0x200 + 0x80 * i + 4 * j) = .xWord i j :=
  locate_eq (by omega) ⟨hi, hj, rfl⟩

theorem locate_yWord {i j : Nat} (hi : i < 4) (hj : j < 8) :
    locate (0x200 + 0x80 * i + 0x20 + 4 * j) = .yWord i j :=
  locate_eq (by omega) ⟨hi, hj, rfl⟩

theorem locate_flags {i : Nat} (hi : i < 4) : locate (0x200 + 0x80 * i + 0x40) = .flags i :=
  locate_eq (by omega) ⟨hi, rfl⟩

theorem locate_rom {k j : Nat} (hk : k < 5) (hj : j < 8) : locate (0x400 + 0x20 * k + 4 * j) = .rom k j :=
  locate_eq (by omega) ⟨hk, hj, rfl⟩

theorem locate_reserved {off : Nat} (hr : Reserved off) (ha : off % 4 = 0) : locate off = .reserved :=
  locate_eq ha hr

/-- The words of R60 are the words of the register files. -/
theorem isRegisterWord_iff {off : Nat} (ha : off % 4 = 0) : isRegisterWord (locate off) = true ↔ RegisterWord off := by
  unfold locate pointLocation RegisterWord
  split_ifs <;> simp only [isRegisterWord, true_iff, false_iff, Bool.false_eq_true] <;> omega

/-! ### What an access can do -/

/-- A read changes only what the Host holds (R62). -/
theorem hostRead_frame (off : Nat) (s : State) :
    (hostRead off s).f = s.f ∧ (hostRead off s).p = s.p ∧ (hostRead off s).ie = s.ie ∧
      (hostRead off s).status = s.status ∧ (hostRead off s).cmd = s.cmd ∧
      (hostRead off s).env.turns = s.env.turns := by
  unfold hostRead; split <;> simp

/-- A write never changes what the Host holds or has to do. -/
theorem hostWrite_env (off : Nat) (w : Word) (s : State) : (hostWrite off w s).env = s.env := by
  unfold hostWrite writeBusy writeIdle
  split <;> split <;> rfl

/-- A write while Busy changes only IE, or DONE and OVR, or OVR (R36, R60). -/
theorem hostWrite_busy_frame {s : State} (h : s.status.busy = true) (off : Nat) (w : Word) :
    (hostWrite off w s).f = s.f ∧ (hostWrite off w s).p = s.p ∧ (hostWrite off w s).cmd = s.cmd ∧
      (hostWrite off w s).status.busy = true ∧ (hostWrite off w s).status.valid = s.status.valid ∧
      (hostWrite off w s).status.err = s.status.err := by
  unfold hostWrite writeBusy
  rw [if_pos h]
  split <;> simp [h]

end Sys2Proof.Laws
end

