-- ==== Sys2Proof/Laws/Step.lean ====
section
/-! SUPPORT. What one step can do, by the move that is next: the equations of `step`, and the one inversion lemma from
which the invariants follow. -/

namespace Sys2Proof.Laws

open Sys2Proof.Machine Sys2Proof.Safety

variable {s : State} {ts : List Turn}

theorem step_none (h : s.env.turns = []) : step s = engineTurn s := by simp only [step, takeTurn, h]

theorem step_engine (h : s.env.turns = .engine :: ts) : step s = engineTurn (withTurns ts s) := by
  simp only [step, takeTurn, h]

theorem step_reset (h : s.env.turns = .reset :: ts) : step s = .next (resetMachine (withTurns ts s)) := by
  simp only [step, takeTurn, h]

theorem step_hostRead {off width : Nat} (h : s.env.turns = .hostRead off width :: ts) (ha : Admitted off width) :
    step s = .next (hostRead off (withTurns ts s)) := by
  simp only [step, takeTurn, h, hostReadTurn, (admitted_iff off width).2 ha, if_true]

theorem step_hostWrite {off width : Nat} {w : Word} (h : s.env.turns = .hostWrite off width w :: ts)
    (ha : Admitted off width) : step s = .next (hostWrite off w (withTurns ts s)) := by
  simp only [step, takeTurn, h, hostWriteTurn, (admitted_iff off width).2 ha, if_true]

theorem step_notAdmitted {off width : Nat} {w : Word} (ha : ¬Admitted off width)
    (h : s.env.turns = .hostRead off width :: ts ∨ s.env.turns = .hostWrite off width w :: ts) :
    step s = .fault .accessNotAdmitted := by
  have hf : admitted off width = false := by rw [Bool.eq_false_iff, ne_eq, admitted_iff]; exact ha
  rcases h with h | h <;> simp [step, takeTurn, h, hostReadTurn, hostWriteTurn, hf]

/-- The Engine's turn while Busy is one completion, of the decoded command or of an illegal word (R95, R100). -/
theorem engineTurn_busy (h : s.status.busy = true) : ∃ r, engineTurn s = .next (finish r s) := by
  unfold engineTurn complete
  rw [if_pos h]
  split
  · next i _ => obtain ⟨r, hr, -⟩ := exec_eq_finish i s; exact ⟨r, hr⟩
  · exact ⟨.error .illegalCommand, rfl⟩

theorem engineTurn_idle (h : s.status.busy = false) : engineTurn s = .next s := by
  unfold engineTurn; rw [if_neg (by simp [h])]

/-- THE STEP, INVERTED: a step that answers a next state is a completion while Busy, the Engine passing while Idle, a
Reset, an admitted read or an admitted write. In each case `u` is the state with the move taken off the schedule. -/
theorem step_cases {t : State} (h : step s = .next t) :
    ∃ u : State, (u = s ∧ s.env.turns = [] ∨ ∃ turn, s.env.turns = turn :: u.env.turns) ∧
      u.f = s.f ∧ u.p = s.p ∧ u.ie = s.ie ∧ u.status = s.status ∧ u.cmd = s.cmd ∧
      (((s.env.turns = [] ∨ s.env.turns = .engine :: u.env.turns) ∧
          (s.status.busy = true ∧ (∃ r, t = finish r u) ∨ s.status.busy = false ∧ t = u)) ∨
        (s.env.turns = .reset :: u.env.turns ∧ t = resetMachine u) ∨
        (∃ off width, s.env.turns = .hostRead off width :: u.env.turns ∧ Admitted off width ∧ t = hostRead off u) ∨
        (∃ off width w, s.env.turns = .hostWrite off width w :: u.env.turns ∧ Admitted off width ∧
          t = hostWrite off w u)) := by
  have engine (u : State) (hu : u.status = s.status) (he : engineTurn u = .next t) :
      s.status.busy = true ∧ (∃ r, t = finish r u) ∨ s.status.busy = false ∧ t = u := by
    rcases hb : s.status.busy
    · rw [engineTurn_idle (hu ▸ hb)] at he; cases he; simp
    · obtain ⟨r, hr⟩ := engineTurn_busy (s := u) (hu ▸ hb)
      rw [hr] at he; cases he; exact .inl ⟨rfl, r, rfl⟩
  rcases ht : s.env.turns with _ | ⟨turn, ts⟩
  · rw [step_none ht] at h
    exact ⟨s, .inl ⟨rfl, rfl⟩, rfl, rfl, rfl, rfl, rfl, .inl ⟨.inl rfl, engine s rfl h⟩⟩
  · refine ⟨withTurns ts s, .inr ⟨turn, rfl⟩, rfl, rfl, rfl, rfl, rfl, ?_⟩
    cases turn with
    | engine => rw [step_engine ht] at h; exact .inl ⟨.inr rfl, engine _ rfl h⟩
    | reset => rw [step_reset ht] at h; cases h; exact .inr (.inl ⟨rfl, rfl⟩)
    | hostRead off width =>
      by_cases ha : Admitted off width
      · rw [step_hostRead ht ha] at h; cases h; exact .inr (.inr (.inl ⟨off, width, rfl, ha, rfl⟩))
      · rw [step_notAdmitted (w := 0#32) ha (.inl ht)] at h; cases h
    | hostWrite off width w =>
      by_cases ha : Admitted off width
      · rw [step_hostWrite ht ha] at h; cases h; exact .inr (.inr (.inr ⟨off, width, w, rfl, ha, rfl⟩))
      · rw [step_notAdmitted ha (.inr ht)] at h; cases h

end Sys2Proof.Laws
end

