-- ==== Sys2Proof/Tests/Slice0.lean ====
section
/-! SUPPORT. Tests on fixed values: the well-formedness checks, decoding of words written out from the spec's encoding,
one step of each command on vectors of `95_test_vectors.md`, and a witness for the hypotheses of each statement.
Expected results are the spec's, cited by the vector's id. -/

namespace Sys2Proof.Tests

open Sys2Proof.Machine Sys2Proof.Safety Sys2Proof.Laws

-- One test after the other: many kernel evaluations waiting at once would each hold a thread.
set_option Elab.async false

/-! ### Small states -/

/-- Reset, with the given `F` registers and point registers loaded. -/
def loaded (fs : List (Nat × Nat)) (ps : List (Nat × Bool × Nat × Nat)) : State :=
  let s := fs.foldl (fun s v => writeF s v.1 (BitVec.ofNat 256 v.2)) State.reset
  ps.foldl (fun s v => writeP s v.1 ⟨v.2.1, BitVec.ofNat 256 v.2.2.1, BitVec.ofNat 256 v.2.2.2⟩) s

/-- `s` with the moves `ts` to come. -/
def withMoves (s : State) (ts : List Turn) : State := withTurns ts s

/-- `s` while the command word `w` runs, with the moves `ts` to come. -/
def busyWith (w : Word) (s : State) (ts : List Turn) : State := withTurns ts (accept w s)

/-- The state after one step that runs the command word `w`. -/
def after (s : State) (w : Nat) : Option State :=
  match step (s.withFetchWord 32 w) with
  | .next t => some t
  | .fault _ => none
  | .refused _ => none

/-- `F[i]` and STATUS after the command `w` (`none` where it takes no step). -/
def fAfter (s : State) (w i : Nat) : Option (U256 × Word) :=
  (after s w).map fun t => (readF t i, statusWord t.status)

/-- `P[i]` and STATUS after the command `w`. -/
def pAfter (s : State) (w i : Nat) : Option (Point × Word) :=
  (after s w).map fun t => (readP t i, statusWord t.status)

/-- STATUS after the command `w`. -/
def statusAfter (s : State) (w : Nat) : Option Word := (after s w).map fun t => statusWord t.status

/-- `2G` (section 2.3). -/
def g2 : Nat × Nat :=
  (0x7CF27B188D034F7E8A52380304B51AC3C08969E277F21B35A60B48FC47669978,
   0x07775510DB8ED040293D9AC69F7430DBBA7DADE63CE982299E04B79D227873D1)

/-- `3G` (section 2.3). -/
def g3 : Nat × Nat :=
  (0x5ECBE4D1A6330A44C8F7EF951D4BF165E6C6B721EFADA985FB41661BC6E7FD6C,
   0x8734640C4998FF7E374B06CE1A64A2ECD82AB036384FB83D9A79B127A27D5032)

/-! ### Well-formedness: one ill-formed term for each check -/

theorem test_wf_fadd : ¬WellFormed (.fadd .modP 8 0 0) ∧ ¬WellFormed (.fadd .modP 0 8 0) ∧
    ¬WellFormed (.fadd .modP 0 0 8) ∧ WellFormed (.fadd .modN 7 7 7) := by decide

theorem test_wf_fsub : ¬WellFormed (.fsub .modP 8 0 0) ∧ ¬WellFormed (.fsub .modP 0 8 0) ∧
    ¬WellFormed (.fsub .modP 0 0 8) ∧ WellFormed (.fsub .modN 7 7 7) := by decide

theorem test_wf_fmul : ¬WellFormed (.fmul .modP 8 0 0) ∧ ¬WellFormed (.fmul .modP 0 8 0) ∧
    ¬WellFormed (.fmul .modP 0 0 8) ∧ WellFormed (.fmul .modN 7 7 7) := by decide

theorem test_wf_fsqr_finv_fred : ¬WellFormed (.fsqr .modP 8 0) ∧ ¬WellFormed (.fsqr .modP 0 8) ∧
    ¬WellFormed (.finv .modP 8 0) ∧ ¬WellFormed (.finv .modP 0 8) ∧
    ¬WellFormed (.fred .modP 8 0) ∧ ¬WellFormed (.fred .modP 0 8) := by decide

theorem test_wf_padd : ¬WellFormed (.padd 4 0 0) ∧ ¬WellFormed (.padd 0 4 0) ∧ ¬WellFormed (.padd 0 0 4) ∧
    WellFormed (.padd 3 3 3) := by decide

theorem test_wf_pdbl_pchk_pldg_keychk : ¬WellFormed (.pdbl 4 0) ∧ ¬WellFormed (.pdbl 0 4) ∧ ¬WellFormed (.pchk 4) ∧
    ¬WellFormed (.pldg 4) ∧ ¬WellFormed (.keychk 4) := by decide

theorem test_wf_pmul : ¬WellFormed (.pmul 4 0 0) ∧ ¬WellFormed (.pmul 0 8 0) ∧ ¬WellFormed (.pmul 0 0 4) ∧
    WellFormed (.pmul 3 7 3) := by decide

theorem test_wf_sigchk_verify : ¬WellFormed (.sigchk 8 0) ∧ ¬WellFormed (.sigchk 0 8) ∧
    ¬WellFormed (.verify 4 0 0 0) ∧ ¬WellFormed (.verify 0 8 0 0) ∧ ¬WellFormed (.verify 0 0 8 0) ∧
    ¬WellFormed (.verify 0 0 0 8) ∧ WellFormed (.verify 3 7 7 7) := by decide

/-! ### Decoding: words written field by field (OPC MOD D A B C E) from R83, R84 and the table of section 2.1 -/

theorem test_decode_fadd : decode 0b00010000_0001_0010_0000_0001_0000_0000#32 = .ok (.fadd .modN 2 0 1) := by decide
theorem test_decode_fsub : decode 0b00010001_0000_0111_0110_0101_0000_0000#32 = .ok (.fsub .modP 7 6 5) := by decide
theorem test_decode_fmul : decode 0b00010010_0001_0101_0011_0100_0000_0000#32 = .ok (.fmul .modN 5 3 4) := by decide
theorem test_decode_fsqr : decode 0b00010011_0001_0110_0010_0000_0000_0000#32 = .ok (.fsqr .modN 6 2) := by decide
theorem test_decode_finv : decode 0b00010100_0000_0001_0000_0000_0000_0000#32 = .ok (.finv .modP 1 0) := by decide
theorem test_decode_fred : decode 0b00010101_0000_0111_0000_0000_0000_0000#32 = .ok (.fred .modP 7 0) := by decide
theorem test_decode_padd : decode 0b00100000_0000_0011_0001_0010_0000_0000#32 = .ok (.padd 3 1 2) := by decide
theorem test_decode_pdbl : decode 0b00100001_0000_0000_0011_0000_0000_0000#32 = .ok (.pdbl 0 3) := by decide
theorem test_decode_pmul : decode 0b00100010_0000_0001_0111_0010_0000_0000#32 = .ok (.pmul 1 7 2) := by decide
theorem test_decode_pchk : decode 0b00100011_0000_0000_0011_0000_0000_0000#32 = .ok (.pchk 3) := by decide
theorem test_decode_pldg : decode 0b00100100_0000_0011_0000_0000_0000_0000#32 = .ok (.pldg 3) := by decide
theorem test_decode_sigchk : decode 0b00110000_0000_0000_0110_0111_0000_0000#32 = .ok (.sigchk 6 7) := by decide
theorem test_decode_keychk : decode 0b00110001_0000_0000_0001_0000_0000_0000#32 = .ok (.keychk 1) := by decide
theorem test_decode_verify : decode 0b01000000_0000_0000_0011_0111_0110_0101#32 = .ok (.verify 3 7 6 5) := by decide

/-- The illegal words of section 2.1, with the condition of R95 each breaks first. -/
theorem test_decode_illegal :
    decode 0x00000000#32 = .error .unknownOpc ∧ decode 0x16000000#32 = .error .unknownOpc ∧
    decode 0x10220100#32 = .error .modOutOfRange ∧ decode 0x10080100#32 = .error .fIndexOutOfRange ∧
    decode 0x10020101#32 = .error .unusedFieldNonzero ∧ decode 0x13011100#32 = .error .unusedFieldNonzero ∧
    decode 0x20120100#32 = .error .unusedFieldNonzero ∧ decode 0x20040100#32 = .error .pIndexOutOfRange ∧
    decode 0x22030400#32 = .error .pIndexOutOfRange ∧ decode 0x23012000#32 = .error .unusedFieldNonzero ∧
    decode 0x24001000#32 = .error .unusedFieldNonzero ∧ decode 0x30011200#32 = .error .unusedFieldNonzero ∧
    decode 0x40011012#32 = .error .unusedFieldNonzero ∧ decode 0x40004012#32 = .error .pIndexOutOfRange ∧
    decode 0x40001812#32 = .error .fIndexOutOfRange ∧ decode 0xFFFFFFFF#32 = .error .unknownOpc := by decide

/-! ### One step of each command (the vectors of sections 2.2 to 2.5) -/

/-- FA2: the 257-bit sum is not truncated. -/
theorem test_fadd_wide_sum :
    fAfter (loaded [(0, Config.p - 1), (1, Config.p - 1)] []) 0x10020100 2
      = some (BitVec.ofNat 256 (Config.p - 2), 0x006#32) := by decide +kernel

/-- FA5: `a = n` is not reduced modulo `n`. -/
theorem test_fadd_unreduced :
    fAfter (loaded [(0, Config.n)] []) 0x10120100 2 = some (0#256, 0x602#32) := by decide +kernel

/-- FS4: `5 - (n - 1) = 6`. -/
theorem test_fsub_wraps :
    fAfter (loaded [(0, 5), (1, Config.n - 1)] []) 0x11120100 2 = some (6#256, 0x006#32) := by decide +kernel

/-- FM6: `Gx * Gy mod p`. -/
theorem test_fmul_wide_product :
    fAfter (loaded [(0, Config.gx), (1, Config.gy)] []) 0x12020100 2
      = some (0x823CD15F6DD3C71933565064513A6B2BD183E554C6A08622F713EBBBFACE98BE#256, 0x006#32) := by decide +kernel

/-- FQ2: `Gx^2 mod p`. -/
theorem test_fsqr :
    fAfter (loaded [(0, Config.gx)] []) 0x13020000 2
      = some (0x98F6B84D29BEF2B281819A5E0E3690D833B699495D694DD1002AE56C426B3F8C#256, 0x006#32) := by decide +kernel

/-- FI6: `Gx^-1 mod n`. -/
theorem test_finv :
    fAfter (loaded [(0, Config.gx)] []) 0x14120000 2
      = some (0x4A8DBB62C2548DDCB57084BCEEAB15480DF0052A93D05CA48CAAA102E7EFDD93#256, 0x006#32) := by decide +kernel

/-- FI9: a register that holds exactly `p` raises `OperandRange`, not `DivisionByZero`. -/
theorem test_finv_unreduced :
    fAfter (loaded [(0, Config.p)] []) 0x14020000 2 = some (0#256, 0x602#32) := by decide +kernel

/-- FR2: `2^256 - 1 - n`. -/
theorem test_fred :
    fAfter (loaded [(0, 2 ^ 256 - 1)] []) 0x15120000 2
      = some (0x00000000FFFFFFFF00000000000000004319055258E8617B0C46353D039CDAAE#256, 0x006#32) := by decide +kernel

/-- PA1: `G + 2G = 3G`. -/
theorem test_padd_chord :
    pAfter (loaded [] [(0, false, Config.gx, Config.gy), (1, false, g2.1, g2.2)]) 0x20020100 2
      = some (affinePoint g3.1 g3.2, 0x006#32) := by decide +kernel

/-- PA8: equal `x`, the `y`s neither equal nor opposite. -/
theorem test_padd_division_by_zero :
    pAfter (loaded [] [(0, false, Config.gx, Config.gy), (1, false, Config.gx, Config.gy + 1)]) 0x20020100 2
      = some (Point.identity, 0x302#32) := by decide +kernel

/-- PD6: the destination is the source. -/
theorem test_pdbl_in_place :
    pAfter (loaded [] [(0, false, Config.gx, Config.gy)]) 0x21000000 0
      = some (affinePoint g2.1 g2.2, 0x006#32) := by decide +kernel

/-- PD4: a point with `y = 0` doubles to the identity. -/
theorem test_pdbl_y_zero :
    pAfter (loaded [] [(0, false, 5, 0)]) 0x21010000 1 = some (Point.identity, 0x006#32) := by decide +kernel

/-- PM5: `5G`. -/
theorem test_pmul :
    pAfter (loaded [(0, 5)] [(0, false, Config.gx, Config.gy)]) 0x22010000 1
      = some (affinePoint 0x51590B7A515140D2D784C85608668FDFEF8C82FD1F5BE52421554A0DC3D033ED
          0xE0C17DA8904A727D8AE1BF36BF8A79260D012F00D4D80888D1D0BB44FDA16DA4, 0x006#32) := by decide +kernel

/-- PM10: an operand off the curve. -/
theorem test_pmul_off_curve :
    pAfter (loaded [(0, 3)] [(0, false, 5, 0)]) 0x22010000 1 = some (affinePoint 5 0, 0x006#32) := by decide +kernel

/-- PH3: off the curve is VALID 0, no error. -/
theorem test_pchk_off_curve :
    statusAfter (loaded [] [(0, false, Config.gx, Config.gy + 1)]) 0x23000000 = some 0x002#32 := by decide +kernel

/-- PH5: the identity passes. -/
theorem test_pchk_identity : statusAfter State.reset 0x23000000 = some 0x006#32 := by decide +kernel

/-- PL1. -/
theorem test_pldg :
    pAfter State.reset 0x24000000 0 = some (affinePoint Config.gx Config.gy, 0x006#32) := by decide +kernel

/-- S6 and S5. -/
theorem test_sigchk_bounds :
    statusAfter (loaded [(1, Config.n - 1), (2, Config.n - 1)] []) 0x30001200 = some 0x006#32 ∧
    statusAfter (loaded [(1, 1), (2, Config.n)] []) 0x30001200 = some 0x102#32 := by decide +kernel

/-- K1 and K5. -/
theorem test_keychk :
    statusAfter (loaded [] [(1, false, Config.gx, Config.gy)]) 0x31001000 = some 0x006#32 ∧
    statusAfter (loaded [] [(1, true, Config.gx, Config.gy)]) 0x31001000 = some 0x202#32 := by decide +kernel

/-- The operands of V10: the signature of `z = 1` under the private key 2 with nonce 3. -/
def signed : State :=
  loaded [(0, 1), (1, 0x5ECBE4D1A6330A44C8F7EF951D4BF165E6C6B721EFADA985FB41661BC6E7FD6C),
    (2, 0x3F32988BC42206D885FA9FB8BE32A0EE99D9CF6BF51E7103FCD64412849AA8F3)] [(1, false, g2.1, g2.2)]

/-- With `e = r = s = (3G).x mod n` and `Q = 2G`: `u1 = u2 = 1` and `R = G + 2G = 3G` (PA1), so the signature
verifies (R201, by hand; B, C and E name one register). -/
theorem test_verify_accepts :
    statusAfter (loaded [(1, g3.1 % Config.n)] [(1, false, g2.1, g2.2)]) 0x40001111 = some 0x006#32 := by
  decide +kernel

/-- The same with `Q = -G`: `R` is the identity, which does not verify and is no error (R201 step 5). And V9: where the
signature and the key are both invalid, the signature is reported. -/
theorem test_verify_rejects :
    statusAfter (loaded [(1, g3.1 % Config.n)] [(1, false, Config.gx, Config.p - Config.gy)]) 0x40001111
      = some 0x002#32 ∧
    statusAfter (writeF (writeP signed 1 ⟨false, 0#256, 0#256⟩) 1 0#256) 0x40001012 = some 0x102#32 := by
  decide +kernel

/-! ### The window and the protocol (section 2.6) -/

/-- The state after one step. -/
def next (s : State) : State :=
  match step s with
  | .next t => t
  | .fault _ => s
  | .refused _ => s

/-- `WR 0x100, 0x6B17D1F2` sets the most significant word of F0. -/
theorem test_write_f_word :
    readF (next (withMoves State.reset [.hostWrite 0x100 4 0x6B17D1F2#32])) 0
      = 0x6B17D1F200000000000000000000000000000000000000000000000000000000#256 := by decide +kernel

/-- `RD 0x43C` is word 7 of `n`. -/
theorem test_read_rom :
    (next (withMoves State.reset [.hostRead 0x43C 4])).env.lastRead = some 0xFC632551#32 := by decide +kernel

/-- Line 4 of the trace: acceptance. -/
theorem test_accept :
    statusWord (next (withMoves State.reset [.hostWrite 0x00C 4 0x13010000#32])).status = 0x001#32 := by decide +kernel

/-- Line 6: a write of F0 while Busy is discarded and sets OVR. -/
theorem test_busy_write :
    let t := next (busyWith 0x13010000#32 (loaded [(0, 7)] []) [.hostWrite 0x100 4 0xDEADBEEF#32])
    statusWord t.status = 0x009#32 ∧ readF t 0 = 7#256 := by decide +kernel

/-- Lines 9 and 10: writing 1 clears DONE, then OVR, and nothing else. -/
theorem test_write_one_to_clear :
    statusWritten 0x2#32 ⟨false, true, true, true, none⟩ = ⟨false, false, true, true, none⟩ ∧
    statusWritten 0x8#32 ⟨false, false, true, true, none⟩ = ⟨false, false, true, false, none⟩ := by decide

/-- Line 16: an illegal word completes with code 5 and the interrupt rises. -/
theorem test_illegal_word :
    let t := next (busyWith 0#32 { State.reset with ie := true } [.engine])
    statusWord t.status = 0x502#32 ∧ irq t = true := by decide +kernel

/-- IE and DONE set, as after line 8 of the trace, with the moves `ts` to come. -/
def signalling (ts : List Turn) : State :=
  withMoves { State.reset with ie := true, status := ⟨false, true, true, true, none⟩ } ts

/-- Lines 9, 13 and 17: `irq` falls when DONE is cleared, at an acceptance, and when IE is written 0; clearing OVR
alone (line 10's write) leaves it. -/
theorem test_irq_falls :
    irq (signalling []) = true ∧ irq (next (signalling [.hostWrite 0x008 4 0x2#32])) = false ∧
    irq (next (signalling [.hostWrite 0x00C 4 0x13011000#32])) = false ∧
    irq (next (signalling [.hostWrite 0x004 4 0#32])) = false ∧
    irq (next (signalling [.hostWrite 0x008 4 0x8#32])) = true := by decide +kernel

/-- Line 2: IE written 1 raises no `irq` while DONE is 0. -/
theorem test_irq_needs_done : irq (next (withMoves State.reset [.hostWrite 0x004 4 1#32])) = false := by
  decide +kernel

/-- The bytes of `Gx` at `0x100`, `0x101` and `0x11F`. -/
theorem test_big_endian :
    byteAt (loaded [(0, Config.gx)] []) 0x100 = 0x6B#8 ∧ byteAt (loaded [(0, Config.gx)] []) 0x101 = 0x17#8 ∧
    byteAt (loaded [(0, Config.gx)] []) 0x11F = 0x96#8 := by decide +kernel

/-! ### Witnesses: for the hypotheses of each statement, and each of its clauses, a state and operands that meet them -/

theorem test_witness_DecodeOfEncodeIsTheCommand :
    WellFormed (.verify 3 7 0 7) ∧ WellFormed (.pmul 3 7 0) ∧ WellFormed (.fsqr .modN 7 0) := by decide

theorem test_witness_DecodedWordIsTheEncoding : decode 0x40003767#32 = .ok (.verify 3 7 6 7) := by decide

theorem test_witness_DecodeAgreesWithTheOpcodeMap :
    ⟨"FADD", 0x10000000#32, 0xFFE888FF#32⟩ ∈ opcodeTable ∧
    rowMatches 0x10177700#32 ⟨"FADD", 0x10000000#32, 0xFFE888FF#32⟩ = true ∧
    rowMatches 0x10277700#32 ⟨"FADD", 0x10000000#32, 0xFFE888FF#32⟩ = false := by decide

theorem test_witness_IllFormedCommandIsIllegal :
    ¬WellFormed (.fadd .modP 8 0 0) ∧ ¬WellFormed (.verify 4 0 0 0) := by decide

theorem test_witness_StepRunsTheDecodedCommand :
    let s := busyWith 0x24030000#32 State.reset []
    let s' := busyWith 0x24030000#32 State.reset [.engine]
    s.status.busy = true ∧ decode s.cmd = .ok (.pldg 3) ∧ s.env.turns = [] ∧
    s'.status.busy = true ∧ decode s'.cmd = .ok (.pldg 3) ∧ s'.env.turns = .engine :: [] := by decide

theorem test_witness_IllegalWordCompletesWithIllegalCommand :
    let s := busyWith 0x10020101#32 State.reset []
    let s' := busyWith 0#32 State.reset [.engine]
    s.status.busy = true ∧ (∀ row ∈ opcodeTable, rowMatches s.cmd row = false) ∧ s.env.turns = [] ∧
    s'.status.busy = true ∧ (∀ row ∈ opcodeTable, rowMatches s'.cmd row = false) ∧
    s'.env.turns = .engine :: [] := by decide

theorem test_witness_IdleMachineWaits :
    State.reset.status.busy = false ∧ State.reset.env.turns = [] ∧
    (withMoves State.reset [.engine]).status.busy = false ∧
    (withMoves State.reset [.engine]).env.turns = .engine :: [] := by decide

/-- For FADD, FSUB, FMUL: both operands `m - 1`; A equal to `m`; B equal to `m`. -/
theorem test_witness_binary_field_commands (m : Modulus) :
    let s := loaded [(0, modulusValue m - 1), (1, modulusValue m)] []
    s.f[(0 : Fin 8).val].toNat < modulusValue m ∧ modulusValue m ≤ s.f[(1 : Fin 8).val].toNat := by
  cases m <;> decide

/-- For FSQR: `m - 1` and `m`. -/
theorem test_witness_FsqrWritesTheModularSquare :
    let s := loaded [(0, Config.n - 1), (7, Config.n)] []
    s.f[(0 : Fin 8).val].toNat < modulusValue .modN ∧ modulusValue .modN ≤ s.f[(7 : Fin 8).val].toNat := by decide

/-- For FINV: 1, `m - 1`, `m` and 0. -/
theorem test_witness_FinvWritesTheModularInverse :
    let s := loaded [(0, 1), (1, Config.p - 1), (2, Config.p), (3, 0)] []
    (s.f[(0 : Fin 8).val].toNat < modulusValue .modP ∧ s.f[(0 : Fin 8).val].toNat ≠ 0) ∧
    (s.f[(1 : Fin 8).val].toNat < modulusValue .modP ∧ s.f[(1 : Fin 8).val].toNat ≠ 0) ∧
    modulusValue .modP ≤ s.f[(2 : Fin 8).val].toNat ∧ s.f[(3 : Fin 8).val].toNat = 0 := by decide

/-- Points for the clauses of PADD, PDBL and PMUL: `P0 = G`, `P1 = -G`, `P2 = (Gx, Gy + 1)`, `P3 = 2G`. -/
def points : State :=
  loaded [] [(0, false, Config.gx, Config.gy), (1, false, Config.gx, Config.p - Config.gy),
    (2, false, Config.gx, Config.gy + 1), (3, false, g2.1, g2.2)]

/-- The identity with coordinates out of range, the largest coordinates, a coordinate equal to `p`, and `y = 0`. -/
def edgePoints : State :=
  loaded [] [(0, true, Config.p, Config.p), (1, false, Config.p - 1, Config.p - 1), (2, false, 0, Config.p),
    (3, false, 5, 0)]

theorem test_witness_accepted (i : Fin 4) : points.p[i.val].inf = false ∧ AcceptedPoint points.p[i.val] := by
  unfold AcceptedPoint; revert i; decide

theorem test_witness_PaddAddsThePoints_identities :
    (edgePoints.p[(0 : Fin 4).val].inf = true ∧ edgePoints.p[(0 : Fin 4).val].inf = true) ∧
    (edgePoints.p[(0 : Fin 4).val].inf = true ∧ edgePoints.p[(1 : Fin 4).val].inf = false ∧
      AcceptedPoint edgePoints.p[(1 : Fin 4).val]) := by
  unfold AcceptedPoint; decide

theorem test_witness_PaddAddsThePoints_opposite :
    points.p[(0 : Fin 4).val].x = points.p[(1 : Fin 4).val].x ∧
    (points.p[(0 : Fin 4).val].y.toNat + points.p[(1 : Fin 4).val].y.toNat) % Config.p = 0 := by decide

theorem test_witness_PaddAddsThePoints_equal :
    points.p[(0 : Fin 4).val].x = points.p[(0 : Fin 4).val].x ∧
    (points.p[(0 : Fin 4).val].y.toNat + points.p[(0 : Fin 4).val].y.toNat) % Config.p ≠ 0 ∧
    points.p[(0 : Fin 4).val].y = points.p[(0 : Fin 4).val].y := by decide

theorem test_witness_PaddAddsThePoints_divides_by_zero :
    points.p[(0 : Fin 4).val].x = points.p[(2 : Fin 4).val].x ∧
    (points.p[(0 : Fin 4).val].y.toNat + points.p[(2 : Fin 4).val].y.toNat) % Config.p ≠ 0 ∧
    points.p[(0 : Fin 4).val].y ≠ points.p[(2 : Fin 4).val].y := by decide

theorem test_witness_PaddAddsThePoints_chord :
    points.p[(0 : Fin 4).val].x ≠ points.p[(3 : Fin 4).val].x := by decide

theorem test_witness_PaddAddsThePoints_out_of_range : ¬AcceptedPoint edgePoints.p[(2 : Fin 4).val] := by
  unfold AcceptedPoint; decide

theorem test_witness_PdblDoublesThePoint :
    edgePoints.p[(0 : Fin 4).val].inf = true ∧
    (edgePoints.p[(3 : Fin 4).val].inf = false ∧ AcceptedPoint edgePoints.p[(3 : Fin 4).val] ∧
      edgePoints.p[(3 : Fin 4).val].y = 0#256) ∧
    (edgePoints.p[(1 : Fin 4).val].inf = false ∧ AcceptedPoint edgePoints.p[(1 : Fin 4).val] ∧
      edgePoints.p[(1 : Fin 4).val].y ≠ 0#256) ∧
    ¬AcceptedPoint edgePoints.p[(2 : Fin 4).val] := by
  unfold AcceptedPoint; decide

theorem test_witness_PmulWritesTheMultiple :
    let s := writeF (writeF edgePoints 0 (BitVec.ofNat 256 (Config.n - 1))) 1 (BitVec.ofNat 256 Config.n)
    (s.f[(0 : Fin 8).val].toNat < Config.n ∧ AcceptedPoint s.p[(1 : Fin 4).val]) ∧
    Config.n ≤ s.f[(1 : Fin 8).val].toNat ∧ ¬AcceptedPoint s.p[(2 : Fin 4).val] := by
  unfold AcceptedPoint; decide

theorem test_witness_PmulIsDoubleAndAdd : 2 ^ 255 - 1 < 2 ^ 255 := by decide

/-- The hypotheses of the group law: `p` is prime; and `G` is a pair of reduced coordinates on the curve. -/
theorem test_witness_PaddIsTheGroupLaw :
    Fact (Nat.Prime Config.p) ∧ Config.gx < Config.p ∧ Config.gy < Config.p ∧
      CurveEquation Config.gx Config.gy :=
  ⟨⟨p_prime⟩, by decide, by decide, (onCurve_iff (by decide) (by decide)).1 (by decide)⟩

theorem test_witness_PmulIsRepeatedAddition : Fact (Nat.Prime Config.p) ∧ 2 ^ 256 - 1 < 2 ^ 256 :=
  ⟨⟨p_prime⟩, by decide⟩

theorem test_witness_SigchkChecksTheRange :
    let s := loaded [(0, 1), (1, Config.n - 1), (2, Config.n)] []
    ValidSignature s.f[(0 : Fin 8).val].toNat s.f[(1 : Fin 8).val].toNat ∧
    ¬ValidSignature s.f[(0 : Fin 8).val].toNat s.f[(2 : Fin 8).val].toNat ∧
    ¬ValidSignature s.f[(3 : Fin 8).val].toNat s.f[(1 : Fin 8).val].toNat := by
  unfold ValidSignature; decide

/-- `G` is a valid key; the identity, a coordinate equal to `p` and `(Gx, Gy + 1)` are none. -/
theorem test_witness_KeychkChecksTheKey :
    ValidKey points.p[(0 : Fin 4).val] ∧ ¬ValidKey edgePoints.p[(0 : Fin 4).val] ∧
    ¬ValidKey edgePoints.p[(2 : Fin 4).val] ∧ ¬ValidKey points.p[(2 : Fin 4).val] :=
  ⟨⟨by decide, by decide, by decide, (onCurve_iff (by decide) (by decide)).1 (by decide)⟩,
    fun h => absurd h.1 (by decide), fun h => absurd h.2.2.1 (by decide),
    fun h => absurd ((onCurve_iff h.2.1 h.2.2.1).2 h.2.2.2) (by decide)⟩

theorem test_witness_VerifyDecidesTheEquation :
    ValidSignature signed.f[(1 : Fin 8).val].toNat signed.f[(2 : Fin 8).val].toNat ∧
    ValidKey signed.p[(1 : Fin 4).val] ∧ ¬ValidKey signed.p[(0 : Fin 4).val] ∧
    ¬ValidSignature signed.f[(3 : Fin 8).val].toNat signed.f[(2 : Fin 8).val].toNat :=
  ⟨by unfold ValidSignature; decide,
    ⟨by decide, by decide, by decide, (onCurve_iff (by decide) (by decide)).1 (by decide)⟩,
    fun h => absurd h.1 (by decide), by unfold ValidSignature; decide⟩

/-- V10: the private key 2, the nonce 3, the digest 1. -/
theorem test_witness_VerifyAcceptsASignersSignature :
    let s := signed
    1 ≤ 2 ∧ 2 < Config.n ∧ 1 ≤ 3 ∧ 3 < Config.n ∧ s.p[(1 : Fin 4).val].inf = false ∧
    pmul 2 basePoint = .ok (.affine s.p[(1 : Fin 4).val].x.toNat s.p[(1 : Fin 4).val].y.toNat) ∧
    pmul 3 basePoint = .ok (.affine g3.1 g3.2) ∧
    s.f[(1 : Fin 8).val].toNat = g3.1 % Config.n ∧ s.f[(1 : Fin 8).val].toNat ≠ 0 ∧
    3 * s.f[(2 : Fin 8).val].toNat % Config.n
      = (s.f[(0 : Fin 8).val].toNat + s.f[(1 : Fin 8).val].toNat * 2) % Config.n ∧
    s.f[(2 : Fin 8).val].toNat ≠ 0 ∧ s.f[(2 : Fin 8).val].toNat < Config.n := by decide +kernel

/-- For the frames: a command that answers a next state, with its destinations. -/
theorem test_witness_frames :
    let s := State.reset
    exec (.fred .modP 2 0) s = .next (wroteF s 2 0) ∧ fDestination (.fred .modP 2 0) = some 2 ∧
    pDestination (.fred .modP 2 0) = none ∧ exec (.pldg 3) s = .next (wroteP s 3 (affinePoint Config.gx Config.gy)) ∧
    pDestination (.pldg 3) = some 3 ∧ fDestination (.pldg 3) = none :=
  ⟨rfl, rfl, rfl, rfl, rfl, rfl⟩

/-- The byte offsets of the frame over the window: the last byte of F1, the first of F3, the byte after STATUS, P0. -/
theorem test_witness_CommandLeavesOtherWindowBytes :
    exec (.fred .modP 2 0) State.reset = .next (wroteF State.reset 2 0) ∧
    ∀ off ∈ [0x13F, 0x160, 0x00C, 0x200], ¬(0x008 ≤ off ∧ off < 0x00C) ∧
      (∀ d, fDestination (.fred .modP 2 0) = some d → ¬(0x100 + 0x20 * d ≤ off ∧ off < 0x100 + 0x20 * d + 0x20)) ∧
      ∀ d, pDestination (.fred .modP 2 0) = some d → ¬(0x200 + 0x80 * d ≤ off ∧ off < 0x200 + 0x80 * d + 0x44) :=
  ⟨rfl, by simp [fDestination, pDestination]⟩

/-- For the statements about errors: SIGCHK of two zeros. -/
theorem test_witness_errors :
    WellFormed (.sigchk 0 0) ∧ exec (.sigchk 0 0) State.reset = .next (failed State.reset .malformedSignature) ∧
    (failed State.reset .malformedSignature).status.err = some .malformedSignature := ⟨rfl, rfl, rfl⟩

/-- Two states with equal registers and everything else different. -/
theorem test_witness_OutcomeDependsOnlyOnRegisters :
    let s' := { busyWith 0x13010000#32 State.reset [.reset] with ie := true }
    State.reset.f = s'.f ∧ State.reset.p = s'.p ∧ State.reset.status ≠ s'.status ∧ State.reset.cmd ≠ s'.cmd := by
  decide

/-- The first and the last word of the `F` file. -/
theorem test_witness_IdleFieldWordAccess :
    State.reset.status.busy = false ∧
    (withMoves State.reset [.hostRead (0x100 + 0x20 * (7 : Fin 8) + 4 * (7 : Fin 8)) 4]).env.turns
      = .hostRead (0x100 + 0x20 * (7 : Fin 8) + 4 * (7 : Fin 8)) 4 :: [] ∧
    (withMoves State.reset [.hostWrite (0x100 + 0x20 * (0 : Fin 8) + 4 * (0 : Fin 8)) 4 1#32]).env.turns
      = .hostWrite (0x100 + 0x20 * (0 : Fin 8) + 4 * (0 : Fin 8)) 4 1#32 :: [] := by decide

/-- Reads and writes of the last words of `P3` and of its FLAGS word, scheduled while Idle. -/
theorem test_witness_IdlePointWords :
    State.reset.status.busy = false ∧
    (∀ t ∈ [Turn.hostRead (0x200 + 0x80 * (3 : Fin 4) + 4 * (7 : Fin 8)) 4,
        .hostRead (0x200 + 0x80 * (3 : Fin 4) + 0x20 + 4 * (7 : Fin 8)) 4,
        .hostRead (0x200 + 0x80 * (3 : Fin 4) + 0x40) 4,
        .hostWrite (0x200 + 0x80 * (3 : Fin 4) + 4 * (7 : Fin 8)) 4 3#32,
        .hostWrite (0x200 + 0x80 * (3 : Fin 4) + 0x20 + 4 * (7 : Fin 8)) 4 3#32,
        .hostWrite (0x200 + 0x80 * (3 : Fin 4) + 0x40) 4 3#32],
      (withMoves State.reset [t]).env.turns = t :: []) := by decide

/-- One read for each clause of `ControlAndRomReads`, at the ends of their ranges. -/
theorem test_witness_ControlAndRomReads :
    (∀ off ∈ [0x000, 0x004, 0x008, 0x00C, 0x41C, 0x420, 0x45C, 0x460, 0x49C],
      (withMoves State.reset [.hostRead off 4]).env.turns = .hostRead off 4 :: []) ∧
    (∀ off ∈ [0x010, 0x0FC, 0x244, 0x3FC, 0x4A0, 0xFFC], Admitted off 4 ∧ Reserved off ∧
      (withMoves State.reset [.hostRead off 4]).env.turns = .hostRead off 4 :: []) := by decide

theorem test_witness_BusyRegisterReadIsUnspecified :
    ∀ off ∈ [0x100, 0x1FC, 0x200, 0x240, 0x3C0],
      let s := busyWith 0x13010000#32 State.reset [.hostRead off 4]
      s.status.busy = true ∧ Admitted off 4 ∧ RegisterWord off ∧ s.env.turns = .hostRead off 4 :: [] := by decide

theorem test_witness_BusyWriteIsDiscarded :
    ∀ off ∈ [0x000, 0x00C, 0x010, 0x100, 0x3C0, 0x400, 0xFFC],
      let s := busyWith 0x13010000#32 State.reset [.hostWrite off 4 1#32]
      s.status.busy = true ∧ Admitted off 4 ∧ off ≠ 0x004 ∧ off ≠ 0x008 ∧
        s.env.turns = .hostWrite off 4 1#32 :: [] := by decide

/-- With `irq` 1 before the write, and while Busy. -/
theorem test_witness_CtrlAndStatusWrites :
    ∀ off ∈ [0x004, 0x008],
      (signalling [.hostWrite off 4 0xA#32]).env.turns = .hostWrite off 4 0xA#32 :: [] ∧
      (busyWith 0#32 State.reset [.hostWrite off 4 0xA#32]).env.turns = .hostWrite off 4 0xA#32 :: [] := by decide

theorem test_witness_IdleWritesIgnored :
    ∀ off ∈ [0x000, 0x010, 0x244, 0x400, 0x49C, 0x4A0, 0xFFC],
      let s := withMoves State.reset [.hostWrite off 4 1#32]
      s.status.busy = false ∧ Admitted off 4 ∧
        (off = 0x000 ∨ (0x400 ≤ off ∧ off < 0x4A0) ∨ Reserved off) ∧ s.env.turns = .hostWrite off 4 1#32 :: [] := by
  decide

/-- With `irq` 1 before the acceptance. -/
theorem test_witness_CmdWriteWhileIdleAccepts :
    let s := signalling [.hostWrite 0x00C 4 0xFFFFFFFF#32]
    s.status.busy = false ∧ s.env.turns = .hostWrite 0x00C 4 0xFFFFFFFF#32 :: [] := by decide

/-- A byte, a misaligned word, and a word past the window. -/
theorem test_witness_UnadmittedAccessHasNoStep :
    ¬Admitted 0x100 1 ∧ ¬Admitted 0x102 4 ∧ ¬Admitted 0x1000 4 ∧
    (withMoves State.reset [.hostRead 0x102 4]).env.turns = .hostRead 0x102 4 :: [] ∧
    (withMoves State.reset [.hostWrite 0x1000 4 0#32]).env.turns = .hostWrite 0x1000 4 0#32 :: [] := by decide

theorem test_witness_ResetTakesEverythingToItsResetValue :
    (busyWith 0x13010000#32 points [.reset]).env.turns = .reset :: [] := by decide

/-- For the invariant: a Busy state that meets it and takes a step. -/
theorem test_witness_EveryStepKeepsStatusConsistent :
    let s := busyWith 0#32 State.reset [.engine]
    StatusInvariant s ∧ step s = .next (failed (withMoves s []) .illegalCommand) := ⟨by decide, rfl⟩

/-- A step that leaves the machine Busy: a read of STATUS. -/
theorem test_witness_BusyHoldsCommandAndOperands :
    let s := busyWith 0x13010000#32 State.reset [.hostRead 0x008 4]
    s.status.busy = true ∧ step s = .next (hostRead 0x008 (withMoves s [])) ∧
      (hostRead 0x008 (withMoves s [])).status.busy = true := ⟨rfl, rfl, rfl⟩

/-- VALID and DONE rise at a completion; OVR at a discarded write; BUSY at an acceptance. -/
theorem test_witness_StatusBitsRiseOnlyAsStated :
    let run := busyWith 0x24000000#32 State.reset []
    let discard := busyWith 0x24000000#32 State.reset [.hostWrite 0x400 4 0#32]
    let issue := withMoves State.reset [.hostWrite 0x00C 4 0#32]
    (run.status.valid = false ∧ run.status.done = false ∧ (next run).status.valid = true ∧
      (next run).status.done = true) ∧
    (discard.status.ovr = false ∧ (next discard).status.ovr = true) ∧
    (issue.status.busy = false ∧ (next issue).status.busy = true) := by decide

/-- A step that changes an `F` register: a write while Idle. -/
theorem test_witness_RegistersChangeOnlyAsStated :
    let s := withMoves State.reset [.hostWrite 0x11C 4 1#32]
    step s = .next (hostWrite 0x11C 1#32 (withMoves s [])) ∧ (hostWrite 0x11C 1#32 (withMoves s [])).f ≠ s.f :=
  ⟨rfl, by decide⟩

theorem test_witness_EveryAcceptedCommandCompletes :
    let s := busyWith 0x13010000#32 State.reset [.hostRead 0x008 4, .hostWrite 0x100 4 0#32, .engine]
    s.status.busy = true ∧ ∀ turn ∈ s.env.turns, OrdinaryTurn turn := by
  simp [busyWith, withTurns, accept, statusAccepted, OrdinaryTurn, Admitted]

end Sys2Proof.Tests
end

section
/-! SUPPORT. `pmul(n, G)` is the identity (`41_point_arithmetic.md` R146 (c)). The group order is odd, so the loop of
R145 over `n` is the loop over `(n - 1) / 2` and one more step. The half order takes `G` to a point that doubles to `-G`,
and the last step adds `G` to that. -/

namespace Sys2Proof.Proofs

open Sys2Proof.Machine Sys2Proof.Laws

/-! ### The loop of scalar multiplication -/

/-- The body of the loop of R145: double, then add the point where the bit of the scalar is set. -/
def pmulStep (bit : Bool) (pt acc : CurvePoint) : Except CmdError CurvePoint :=
  (pdbl acc).bind fun twice => if bit then padd twice pt else .ok twice

theorem pmulBits_succ (k : Nat) (pt : CurvePoint) (i : Nat) (acc : CurvePoint) :
    pmulBits k pt (i + 1) acc = (pmulStep (k.testBit i) pt acc).bind (pmulBits k pt i) := by
  simp only [pmulBits, pmulStep, bind]
  cases pdbl acc with
  | error e => rfl
  | ok twice => cases k.testBit i <;> rfl

/-- The loop over `2k + b` is the loop over `k`, then one more step for the bit `b`. -/
theorem pmulBits_bit (b : Bool) (k : Nat) (pt : CurvePoint) :
    ∀ i acc, pmulBits (Nat.bit b k) pt (i + 1) acc = (pmulBits k pt i acc).bind (pmulStep b pt)
  | 0, acc => by
    rw [pmulBits_succ, Nat.testBit_bit_zero]
    exact bind_pure (pmulStep b pt acc)
  | i + 1, acc => by
    rw [pmulBits_succ, pmulBits_succ k, Nat.testBit_bit_succ]
    cases pmulStep (k.testBit i) pt acc with
    | error e => rfl
    | ok acc' => exact pmulBits_bit b k pt i acc'

/-- A leading zero bit leaves the identity as it is. -/
theorem pmulBits_succ_of_lt {k i : Nat} (hk : k < 2 ^ i) (pt : CurvePoint) :
    pmulBits k pt (i + 1) .identity = pmulBits k pt i .identity := by
  rw [pmulBits_succ, Nat.testBit_lt_two_pow hk]
  rfl

/-- R145 read from the least significant bit: `pmul` of `2k + b` is one loop step after `pmul` of `k`. -/
theorem pmul_bit (b : Bool) {k : Nat} (hk : k < 2 ^ 255) (pt : CurvePoint) :
    pmul (Nat.bit b k) pt = (pmul k pt).bind (pmulStep b pt) := by
  rw [pmul, pmulBits_bit, pmul, pmulBits_succ_of_lt hk]

/-! ### A point and its negation -/

theorem fadd_fsub_zero_cancel {y m : Nat} (hy : y < m) : fadd (fsub 0 y m) y m = 0 := by
  have hm : 0 < m := by omega
  rw [fadd_eq_mod (fsub_lt hm hy) hy, fsub_eq_mod hm hy, Nat.mod_add_mod, Nat.zero_add, Nat.sub_add_cancel hy.le,
    Nat.mod_self]

/-- `-P + P` is the identity (R142, R144). -/
theorem padd_pneg_self {x y : Nat} (hy : y < Config.p) :
    padd (pneg (.affine x y)) (.affine x y) = .ok .identity :=
  if_pos ⟨rfl, fadd_fsub_zero_cancel hy⟩

/-! ### The order of the base point -/

/-- The point `((n - 1) / 2) * G`. -/
def halfOrderPoint : CurvePoint :=
  .affine 0x2AFA386B3F2BDCDB83F4D83F8FA3874D7B74DCB454BD644FDD6BF3D1F2DA8DB6
    0x72184BE1CAA8563462B536F10852D665AE8A64FDF1EB8D4C946AD589796F729C

/-- The one long evaluation: 255 doublings and an addition for each bit set. -/
theorem pmul_half_order : pmul (Config.n / 2) basePoint = .ok halfOrderPoint := by decide +kernel

theorem pdbl_halfOrderPoint : pdbl halfOrderPoint = .ok (pneg basePoint) := by decide +kernel

theorem n_eq_bit : Config.n = Nat.bit true (Config.n / 2) := by decide

/-- Settles O24: the loop reaches `halfOrderPoint` before the last bit of `n`; its double is `-G`, and `-G + G` is the
identity. -/
theorem orderTimesBasePointIsTheIdentity : Obligations.OrderTimesBasePointIsTheIdentity := by
  unfold Obligations.OrderTimesBasePointIsTheIdentity
  calc pmul Config.n basePoint
      = (pmul (Config.n / 2) basePoint).bind (pmulStep true basePoint) := by
        rw [← pmul_bit true (by decide), ← n_eq_bit]
    _ = pmulStep true basePoint halfOrderPoint := by rw [pmul_half_order, Except.bind]
    _ = padd (pneg basePoint) basePoint := by rw [pmulStep, pdbl_halfOrderPoint, Except.bind, if_pos rfl]
    _ = .ok .identity := padd_pneg_self (by decide)

end Sys2Proof.Proofs
end

section
/-! SUPPORT. STATUS, the registers and the control words under every move (`10_state.md` R32 to R41): what an access
does at the location it meets, the inversion of a Host write, and from it what one step can do to STATUS and to the
register files. -/

namespace Sys2Proof.Proofs

open Sys2Proof.Machine Sys2Proof.Safety Sys2Proof.Laws

/-! ### The control registers as words (R33, R34) -/

theorem toNat_append_eq_add {k l : Nat} (x : BitVec k) (y : BitVec l) :
    (x ++ y).toNat = x.toNat * 2 ^ l + y.toNat := by
  rw [BitVec.toNat_append, ← Nat.shiftLeft_add_eq_or_of_lt y.isLt, Nat.shiftLeft_eq]

theorem ctrlWord_eq (ie : Bool) : ctrlWord ie = BitVec.ofNat 32 ie.toNat := by
  cases ie <;> rfl

/-- STATUS read as a number: each field at the weight of its lowest bit (R34). -/
theorem statusWord_eq (st : Status) :
    statusWord st = BitVec.ofNat 32 (st.busy.toNat + 2 * st.done.toNat + 4 * st.valid.toNat + 8 * st.ovr.toNat
      + 256 * (errField st.err).toNat) := by
  have hsum : (statusWord st).toNat = st.busy.toNat + 2 * st.done.toNat + 4 * st.valid.toNat + 8 * st.ovr.toNat
      + 256 * (errField st.err).toNat := by
    simp only [statusWord, toNat_append_eq_add, BitVec.toNat_ofBool, BitVec.toNat_ofNat]
    omega
  rw [← hsum, BitVec.ofNat_toNat, BitVec.setWidth_eq]

/-! ### An access at the location it meets -/

section Access

variable {s : State} {ts : List Turn} {off : Nat} {w : Word} {l : Location}

theorem aligned_of_admitted {width : Nat} : Admitted off width → off % 4 = 0
  | ⟨_, hal, _⟩ => hal

/-- Taking a move off the schedule changes no word of the window. -/
theorem wordAt_withTurns (ts : List Turn) (s : State) (l : Location) : wordAt (withTurns ts s) l = wordAt s l := by
  cases l <;> rfl

/-- R62: a read of a location that is no register word returns what the location holds, Busy or Idle. -/
theorem step_hostRead_at (h : s.env.turns = .hostRead off 4 :: ts) (ha : Admitted off 4) (ho : OffsetOf off l)
    (hl : isRegisterWord l = false) :
    step s = .next { s with env := { s.env with turns := ts, lastRead := some (wordAt s l) } } := by
  rw [step_hostRead h ha, hostRead, locate_eq (aligned_of_admitted ha) ho, hl, Bool.and_false,
    if_neg Bool.false_ne_true, wordAt_withTurns]
  rfl

/-- R57: word `j` of the `k`-th constant of the ROM. -/
theorem step_hostRead_rom {k : Nat} (hk : k < 5) (j : Fin 8)
    (h : s.env.turns = .hostRead (0x400 + 0x20 * k + 4 * j) 4 :: ts) :
    step s = .next { s with env := { s.env with
      turns := ts, lastRead := some ((romConstant k).extractLsb' (224 - 32 * j) 32) } } :=
  step_hostRead_at (l := .rom k j) h ⟨rfl, by omega, by omega⟩ ⟨hk, j.isLt, rfl⟩ rfl

theorem step_hostWrite_idle_at (hb : s.status.busy = false) (h : s.env.turns = .hostWrite off 4 w :: ts)
    (ha : Admitted off 4) (ho : OffsetOf off l) : step s = .next (writeIdle w (withTurns ts s) l) := by
  rw [step_hostWrite h ha, hostWrite, locate_eq (aligned_of_admitted ha) ho, withTurns_status, hb,
    if_neg Bool.false_ne_true]

/-- R33: a write of CTRL does the same Busy or Idle. -/
theorem hostWrite_ctrl (w : Word) (s : State) : hostWrite 0x004 w s = { s with ie := w.getLsbD 0 } :=
  ite_self _

/-- R34: a write of STATUS does the same Busy or Idle. -/
theorem hostWrite_status (w : Word) (s : State) :
    hostWrite 0x008 w s = { s with status := statusWritten w s.status } :=
  ite_self _

/-- R36: while Busy every location but CTRL and STATUS discards a write. -/
theorem writeBusy_of_ne (w : Word) (s : State) (hc : l ≠ .ctrl) (hs : l ≠ .status) :
    writeBusy w s l = { s with status := statusOverrun s.status } := by
  cases l with
  | ctrl => exact absurd rfl hc
  | status => exact absurd rfl hs
  | _ => rfl

theorem hostWrite_busy_of_ne (hb : s.status.busy = true) (hal : off % 4 = 0) (hc : off ≠ 0x004) (hs : off ≠ 0x008)
    (w : Word) : hostWrite off w s = { s with status := statusOverrun s.status } := by
  rw [hostWrite, if_pos hb]
  exact writeBusy_of_ne w s (fun h => hc (locate_inv hal h)) (fun h => hs (locate_inv hal h))

/-! ### A Host write, inverted -/

/-- What a write can do to STATUS: nothing, clear bits as R34 says, set OVR because it was discarded while Busy (R36),
or accept a command while Idle (R37). -/
theorem hostWrite_status_cases (hal : off % 4 = 0) (w : Word) (s : State) :
    (hostWrite off w s).status = s.status ∨
    (hostWrite off w s).status = statusWritten w s.status ∨
    (s.status.busy = true ∧ off ≠ 0x004 ∧ off ≠ 0x008 ∧ (hostWrite off w s).status = statusOverrun s.status) ∨
    (s.status.busy = false ∧ off = 0x00C ∧ (hostWrite off w s).cmd = w ∧
      (hostWrite off w s).status = statusAccepted s.status) := by
  by_cases hc : off = 0x004
  · subst hc; rw [hostWrite_ctrl]; exact .inl rfl
  by_cases hs : off = 0x008
  · subst hs; rw [hostWrite_status]; exact .inr (.inl rfl)
  cases hb : s.status.busy
  case true =>
    rw [hostWrite_busy_of_ne hb hal hc hs]
    exact .inr (.inr (.inl ⟨rfl, hc, hs, rfl⟩))
  case false =>
    rw [hostWrite, hb, if_neg Bool.false_ne_true]
    cases hl : locate off with
    | ctrl => exact absurd (locate_inv hal hl) hc
    | status => exact absurd (locate_inv hal hl) hs
    | cmd => exact .inr (.inr (.inr ⟨rfl, locate_inv hal hl, rfl, rfl⟩))
    | _ => exact .inl rfl

/-- R41: a write leaves the register files alone unless it meets a register word while Idle. -/
theorem hostWrite_registers_cases (hal : off % 4 = 0) (w : Word) (s : State) :
    ((hostWrite off w s).f = s.f ∧ (hostWrite off w s).p = s.p) ∨
    (s.status.busy = false ∧ RegisterWord off) := by
  cases hb : s.status.busy
  case true =>
    obtain ⟨hf, hp, -⟩ := hostWrite_busy_frame hb off w
    exact .inl ⟨hf, hp⟩
  case false =>
    rw [← isRegisterWord_iff hal, hostWrite, hb, if_neg Bool.false_ne_true]
    cases locate off with
    | fWord | xWord | yWord | flags => exact .inr ⟨rfl, rfl⟩
    | _ => exact .inl ⟨rfl, rfl⟩

end Access

/-! ### One step, inverted -/

section Step

variable {s t : State}

/-- What one step can do to STATUS: complete the command, leave STATUS alone, reset it, or what a Host write can do. -/
theorem step_status_cases (h : step s = .next t) :
    (s.status.busy = true ∧ t.status.busy = false ∧ t.status.ovr = s.status.ovr ∧
      (t.status.err ≠ none → t.status.valid = false)) ∨
    t.status = s.status ∨
    t.status = Status.reset ∨
    (∃ w, t.status = statusWritten w s.status) ∨
    (s.status.busy = true ∧ (∃ off w ts, s.env.turns = .hostWrite off 4 w :: ts ∧ off ≠ 0x004 ∧ off ≠ 0x008) ∧
      t.status = statusOverrun s.status) ∨
    (s.status.busy = false ∧ (∃ w ts, s.env.turns = .hostWrite 0x00C 4 w :: ts ∧ t.cmd = w) ∧
      t.status = statusAccepted s.status) := by
  obtain ⟨u, -, -, -, -, hst, -, ⟨-, ⟨hb, r, rfl⟩ | ⟨-, rfl⟩⟩ | ⟨-, rfl⟩ | ⟨off, width, -, -, rfl⟩ |
    ⟨off, width, w, hturn, ⟨rfl, hal, -⟩, rfl⟩⟩ := step_cases h
  · obtain ⟨-, -, -, hovr, hidle, -⟩ := finish_frame r u
    exact .inl ⟨hb, hidle, hst ▸ hovr, finish_valid_err r u⟩
  · exact .inr (.inl hst)
  · exact .inr (.inr (.inl rfl))
  · obtain ⟨-, -, -, hread, -⟩ := hostRead_frame off u
    exact .inr (.inl (hread.trans hst))
  · rw [← hst]
    rcases hostWrite_status_cases hal w u with heq | heq | ⟨hb, hc, hs, heq⟩ | ⟨hb, rfl, hcmd, heq⟩
    · exact .inr (.inl heq)
    · exact .inr (.inr (.inr (.inl ⟨w, heq⟩)))
    · exact .inr (.inr (.inr (.inr (.inl ⟨hb, ⟨off, w, _, hturn, hc, hs⟩, heq⟩))))
    · exact .inr (.inr (.inr (.inr (.inr ⟨hb, ⟨w, _, hturn, hcmd⟩, heq⟩))))

end Step

/-! ### The obligations -/

/-- Settles O49, over the six things a step can do to STATUS. -/
theorem everyStepKeepsStatusConsistent : Obligations.EveryStepKeepsStatusConsistent := by
  intro s t hs h
  rcases step_status_cases h with ⟨-, hidle, -, herr⟩ | heq | heq | ⟨w, heq⟩ | ⟨-, -, heq⟩ | ⟨-, -, heq⟩
  · exact ⟨by simp [hidle], herr, by simp [hidle]⟩
  · simpa only [StatusInvariant, heq] using hs
  · simp [StatusInvariant, heq, Status.reset]
  · obtain ⟨hbd, herr, hbusy⟩ := hs
    simp only [StatusInvariant, heq, statusWritten_busy, statusWritten_done, statusWritten_valid, statusWritten_err,
      Bool.and_eq_true]
    exact ⟨fun ⟨hb, hd, _⟩ => hbd ⟨hb, hd⟩, herr, hbusy⟩
  · simpa [StatusInvariant, heq] using hs
  · simp [StatusInvariant, heq]

/-- Settles O38: each clause names the location that stands at the offset. -/
theorem controlAndRomReads : Obligations.ControlAndRomReads := by
  rintro s ts off w h (⟨rfl, rfl⟩ | ⟨rfl, rfl⟩ | ⟨rfl, rfl⟩ | ⟨rfl, rfl⟩ | ⟨j, rfl, rfl⟩ | ⟨j, rfl, rfl⟩ |
    ⟨j, rfl, rfl⟩ | ⟨j, rfl, rfl⟩ | ⟨j, rfl, rfl⟩ | ⟨ha, hr, rfl⟩)
  · exact step_hostRead_at (l := .id) h (by decide) rfl rfl
  · rw [← ctrlWord_eq]
    exact step_hostRead_at (l := .ctrl) h (by decide) rfl rfl
  · rw [← statusWord_eq]
    exact step_hostRead_at (l := .status) h (by decide) rfl rfl
  · exact step_hostRead_at (l := .cmd) h (by decide) rfl rfl
  · exact step_hostRead_rom (k := 0) (by decide) j h
  · exact step_hostRead_rom (k := 1) (by decide) j h
  · exact step_hostRead_rom (k := 2) (by decide) j h
  · exact step_hostRead_rom (k := 3) (by decide) j h
  · exact step_hostRead_rom (k := 4) (by decide) j h
  · exact step_hostRead_at (l := .reserved) h ha hr rfl

/-- Settles O40. -/
theorem busyWriteIsDiscarded : Obligations.BusyWriteIsDiscarded := by
  intro s ts off w hb ha hc hs h
  rw [step_hostWrite h ha, hostWrite_busy_of_ne (s := withTurns ts s) hb (aligned_of_admitted ha) hc hs]
  rfl

/-- Settles O42: ID, the words of the ROM and the reserved offsets are the locations a write while Idle ignores. -/
theorem idleWritesIgnored : Obligations.IdleWritesIgnored := by
  intro s ts off w hb ha hregion h
  rcases hregion with hid | hrom | hr
  · exact step_hostWrite_idle_at (l := .id) hb h ha hid
  · have ho : OffsetOf off (.rom ((off - 0x400) / 0x20) ((off - 0x400) % 0x20 / 4)) := by
      simp only [OffsetOf]; omega
    exact step_hostWrite_idle_at hb h ha ho
  · exact step_hostWrite_idle_at (l := .reserved) hb h ha hr

/-- Settles O52: of the six things a step can do to STATUS, each bit rises in one only. -/
theorem statusBitsRiseOnlyAsStated : Obligations.StatusBitsRiseOnlyAsStated := by
  intro s t h
  rcases step_status_cases h with ⟨hb, hidle, hovr, -⟩ | heq | heq | ⟨w, heq⟩ | ⟨hb, hwrite, heq⟩ | ⟨hb, hwrite, heq⟩
  · exact ⟨fun _ _ => ⟨hb, hidle⟩, fun _ _ => ⟨hb, hidle⟩, by simp +contextual [hovr], by simp [hidle]⟩
  · simp +contextual [heq]
  · simp [heq, Status.reset]
  · simp +contextual [heq]
  · exact ⟨by simp +contextual [heq], by simp +contextual [heq], fun _ _ => ⟨hb, hwrite⟩, by simp +contextual [heq]⟩
  · exact ⟨by simp [heq], by simp [heq], by simp +contextual [heq], fun _ _ => hwrite⟩

/-- Settles O53: reads and the waiting Engine leave the register files alone, and a write too unless it meets a register
word while Idle. -/
theorem registersChangeOnlyAsStated : Obligations.RegistersChangeOnlyAsStated := by
  intro s t h hne
  obtain ⟨u, -, hf, hp, -, hst, -, ⟨hturn, ⟨hb, -⟩ | ⟨-, rfl⟩⟩ | ⟨hturn, -⟩ | ⟨off, width, -, -, rfl⟩ |
    ⟨off, width, w, hturn, ⟨rfl, hal, -⟩, rfl⟩⟩ := step_cases h
  · exact .inl ⟨hb, hturn.imp_right fun hengine => ⟨_, hengine⟩⟩
  · exact absurd hne (by simp [hf, hp])
  · exact .inr (.inr ⟨_, hturn⟩)
  · obtain ⟨hrf, hrp, -⟩ := hostRead_frame off u
    exact absurd hne (by simp [hrf, hrp, hf, hp])
  · rcases hostWrite_registers_cases hal w u with ⟨hwf, hwp⟩ | ⟨hb, hreg⟩
    · exact absurd hne (by simp [hwf, hwp, hf, hp])
    · exact .inr (.inl ⟨hst ▸ hb, off, w, _, hturn, hreg⟩)

/-- Settles O41: both writes do the same Busy or Idle, and `irq` is read off the next state. -/
theorem ctrlAndStatusWrites : Obligations.CtrlAndStatusWrites := by
  refine fun s ts w => ⟨fun h => ⟨_, ?_, rfl, ?_⟩, fun h => ⟨_, ?_, rfl, ?_⟩⟩
  · rw [step_hostWrite h (by decide), hostWrite_ctrl]
    rfl
  · rw [irq_eq]
  · rw [step_hostWrite h (by decide), hostWrite_status]
    rfl
  · rw [irq_eq, Bool.and_assoc]

/-- Settles O43: the write is the acceptance of its word, which clears DONE. -/
theorem cmdWriteWhileIdleAccepts : Obligations.CmdWriteWhileIdleAccepts := by
  intro s ts w hb h
  refine ⟨_, ?_, rfl, ?_⟩
  · exact step_hostWrite_idle_at (l := .cmd) hb h (by decide) rfl
  · rw [irq_eq, Bool.and_false]

/-- Settles O50: at reset no bit of STATUS is set. -/
theorem statusConsistentAtReset : Obligations.StatusConsistentAtReset := by
  unfold Obligations.StatusConsistentAtReset
  decide

end Sys2Proof.Proofs
end

section
/-! SUPPORT. The register words of the window and its byte image (`20_memory.md` R50 to R56, R59, R60, R67): what an
access does at a word of an `F` or `P` register, Idle and Busy, what a byte of the window is, and which bytes a command
can change. -/

namespace Sys2Proof.Proofs

open Sys2Proof.Machine Sys2Proof.Safety Sys2Proof.Laws

/-! ### Reads of register words -/

/-- A point's FLAGS word is the bit `inf` (R56). -/
theorem flagsWord_eq (pt : Point) : flagsWord pt = if pt.inf then 1#32 else 0#32 := by
  rw [flagsWord]
  cases pt.inf <;> rfl

section Reads

variable {s : State} {ts : List Turn} {off : Nat} {l : Location}

/-- R62: while Idle a read of any location returns what it holds. -/
theorem step_hostRead_idle_at (hb : s.status.busy = false) (h : s.env.turns = .hostRead off 4 :: ts)
    (ha : Admitted off 4) (ho : OffsetOf off l) :
    step s = .next { s with env := { s.env with turns := ts, lastRead := some (wordAt s l) } } := by
  rw [step_hostRead h ha, hostRead, locate_eq (aligned_of_admitted ha) ho, withTurns_status, hb, Bool.false_and,
    if_neg Bool.false_ne_true, wordAt_withTurns]
  rfl

end Reads

/-! ### The byte image (R52, R53) -/

/-- A quantity whose eight words stand at `o` appears from `o` on as its 32 bytes, the most significant first. -/
theorem byteAt_eq_of_words {s : State} {o k : Nat} {v : U256} (ho : o % 4 = 0)
    (hw : ∀ j < 8, wordAt s (locate (o + 4 * j)) = wordOf v j) (hk : k < 32) : byteAt s (o + k) = byteOf v k := by
  have hword : o + k - (o + k) % 4 = o + 4 * (k / 4) := by omega
  have hbyte : (o + k) % 4 = k % 4 := by omega
  rw [byteAt, hword, hbyte, hw _ (by omega), wordByte_wordOf v hk]

/-- R57: the bytes of the `c`-th constant of the ROM. -/
theorem byteAt_rom (s : State) {c : Nat} (hc : c < 5) (k : Fin 32) :
    byteAt s (0x400 + 0x20 * c + k) = byteOf (romConstant c) k :=
  byteAt_eq_of_words (by omega) (fun j hj => by rw [locate_rom hc hj]; rfl) k.isLt

/-! ### What a command leaves in the registers -/

section Registers

variable {s t : State}

theorem readF_writeF_of_ne {d k : Nat} (h : d ≠ k) (v : U256) : readF (writeF s d v) k = readF s k := by
  rw [readF, writeF_f, Vector.getElem?_setIfInBounds_ne h, readF]

theorem readP_writeP_of_ne {d k : Nat} (h : d ≠ k) (pt : Point) : readP (writeP s d pt) k = readP s k := by
  rw [readP, writeP_p, Vector.getElem?_setIfInBounds_ne h, readP]

/-- A completion leaves every `F` register but the one its result names. -/
theorem readF_finish {r : Except CmdError CmdResult} {k : Nat} (h : ∀ d v, r = .ok (.toF d v) → d ≠ k) :
    readF (finish r s) k = readF s k := by
  rcases r with e | ⟨d, v⟩ | ⟨d, pt⟩ | v
  case ok.toF => exact readF_writeF_of_ne (h d v rfl) _
  all_goals rfl

/-- A completion leaves every `P` register but the one its result names. -/
theorem readP_finish {r : Except CmdError CmdResult} {k : Nat} (h : ∀ d pt, r = .ok (.toP d pt) → d ≠ k) :
    readP (finish r s) k = readP s k := by
  rcases r with e | ⟨d, v⟩ | ⟨d, pt⟩ | v
  case ok.toP => exact readP_writeP_of_ne (h d pt rfl) _
  all_goals rfl

/-- R101 (c): a command leaves every register but its D register, and CTRL and CMD. -/
theorem exec_registers_frame {i : Instr} (h : exec i s = .next t) :
    (∀ k, fDestination i ≠ some k → readF t k = readF s k) ∧
    (∀ k, pDestination i ≠ some k → readP t k = readP s k) ∧ t.ie = s.ie ∧ t.cmd = s.cmd := by
  obtain ⟨r, hr, hF, hP⟩ := exec_eq_finish i s
  obtain rfl : finish r s = t := by rw [hr] at h; exact Host.Outcome.next.inj h
  obtain ⟨hie, hcmd, -⟩ := finish_frame r s
  refine ⟨fun k hk => readF_finish ?_, fun k hk => readP_finish ?_, hie, hcmd⟩
  · rintro d v hv rfl
    exact hk (hF d v hv)
  · rintro d pt hpt rfl
    exact hk (hP d pt hpt)

end Registers

/-! ### The bus (R10, R50) -/

theorem offsetOf_base_add (off : Nat) : offsetOf (Config.base + off) = some off := by
  rw [offsetOf, if_pos (Nat.le_add_right _ _), Nat.add_sub_cancel_left]

/-! ### The obligations -/

/-- Settles O30: the location of the byte's word is one the command leaves, unless it is STATUS or a word of the D
register, and the hypotheses exclude the offsets of those. -/
theorem commandLeavesOtherWindowBytes : Obligations.CommandLeavesOtherWindowBytes := by
  intro i s t off h hstatus hF hP
  obtain ⟨hf, hp, hie, hcmd⟩ := exec_registers_frame h
  suffices hword : wordAt t (locate (off - off % 4)) = wordAt s (locate (off - off % 4)) by
    rw [byteAt, hword, byteAt]
  have ho : OffsetOf (off - off % 4) (locate (off - off % 4)) := locate_inv (by omega) rfl
  cases hl : locate (off - off % 4) <;> simp only [hl, OffsetOf] at ho
  case id | rom | reserved => rfl
  case ctrl => rw [wordAt, hie, wordAt]
  case status => omega
  case cmd => exact hcmd
  case fWord k j =>
    have hk : fDestination i ≠ some k := fun hd => hF k hd (by omega)
    rw [wordAt, hf k hk, wordAt]
  case xWord k j | yWord k j | flags k =>
    have hk : pDestination i ≠ some k := fun hd => hP k hd (by omega)
    rw [wordAt, hp k hk, wordAt]

/-- Settles O35: the offset holds word `j` of `F[i]`. -/
theorem idleFieldWordAccess : Obligations.IdleFieldWordAccess := by
  intro s ts i j hb
  have ha : Admitted (0x100 + 0x20 * i + 4 * j) 4 := ⟨rfl, by omega, by omega⟩
  have ho : OffsetOf (0x100 + 0x20 * i + 4 * j) (.fWord i j) := ⟨i.isLt, j.isLt, rfl⟩
  refine ⟨fun h => ?_, fun w h => ⟨setWord s.f[i.val] j w, ?_, fun k hk => getLsbD_setWord _ w j.isLt hk⟩⟩
  · rw [step_hostRead_idle_at hb h ha ho, wordAt, readF_fin, wordOf]
  · rw [step_hostWrite_idle_at hb h ha ho, writeIdle, readF_fin, writeF_fin]
    rfl

/-- Settles O36: each offset holds a word of its component, and FLAGS is the bit `inf`. -/
theorem idlePointWordReads : Obligations.IdlePointWordReads := by
  refine fun s ts i j hb => ⟨fun h => ?_, fun h => ?_, fun h => ?_⟩
  · rw [step_hostRead_idle_at (l := .xWord i j) hb h ⟨rfl, by omega, by omega⟩ ⟨i.isLt, j.isLt, rfl⟩, wordAt,
      readP_fin, wordOf]
  · rw [step_hostRead_idle_at (l := .yWord i j) hb h ⟨rfl, by omega, by omega⟩ ⟨i.isLt, j.isLt, rfl⟩, wordAt,
      readP_fin, wordOf]
  · rw [step_hostRead_idle_at (l := .flags i) hb h ⟨rfl, by omega, by omega⟩ ⟨i.isLt, rfl⟩, wordAt, readP_fin,
      flagsWord_eq]

/-- Settles O37: the write replaces the component its offset holds. -/
theorem idlePointWordWrites : Obligations.IdlePointWordWrites := by
  refine fun s ts i j w hb =>
    ⟨fun h => ⟨setWord s.p[i.val].x j w, ?_, fun k hk => getLsbD_setWord _ w j.isLt hk⟩,
      fun h => ⟨setWord s.p[i.val].y j w, ?_, fun k hk => getLsbD_setWord _ w j.isLt hk⟩, fun h => ?_⟩
  · rw [step_hostWrite_idle_at (l := .xWord i j) hb h ⟨rfl, by omega, by omega⟩ ⟨i.isLt, j.isLt, rfl⟩, writeIdle,
      readP_fin, writeP_fin]
    rfl
  · rw [step_hostWrite_idle_at (l := .yWord i j) hb h ⟨rfl, by omega, by omega⟩ ⟨i.isLt, j.isLt, rfl⟩, writeIdle,
      readP_fin, writeP_fin]
    rfl
  · rw [step_hostWrite_idle_at (l := .flags i) hb h ⟨rfl, by omega, by omega⟩ ⟨i.isLt, rfl⟩, writeIdle, readP_fin,
      writeP_fin]
    rfl

/-- Settles O39: the read takes the next value of `Config.busyRead`. -/
theorem busyRegisterReadIsUnspecified : Obligations.BusyRegisterReadIsUnspecified := by
  intro s ts off hb ha hreg h
  have hword : isRegisterWord (locate off) = true := (isRegisterWord_iff (aligned_of_admitted ha)).2 hreg
  rw [step_hostRead h ha, hostRead, withTurns_status, hb, hword, Bool.and_self, if_pos rfl]
  rfl

/-- Settles O45: the eight words of each quantity stand in order from its offset. -/
theorem registersAreBigEndianInTheWindow : Obligations.RegistersAreBigEndianInTheWindow := by
  refine fun s k => ⟨fun i => ?_, fun i => ?_, fun i => ?_, ?_⟩
  · exact byteAt_eq_of_words (by omega) (fun j hj => by rw [locate_fWord i.isLt hj, wordAt, readF_fin]) k.isLt
  · exact byteAt_eq_of_words (by omega) (fun j hj => by rw [locate_xWord i.isLt hj, wordAt, readP_fin]) k.isLt
  · exact byteAt_eq_of_words (by omega) (fun j hj => by rw [locate_yWord i.isLt hj, wordAt, readP_fin]) k.isLt
  · simp only [List.forall_mem_cons, List.not_mem_nil, false_imp_iff, implies_true, and_true]
    exact ⟨byteAt_rom s (c := 0) (by decide) k, byteAt_rom s (c := 1) (by decide) k,
      byteAt_rom s (c := 2) (by decide) k, byteAt_rom s (c := 3) (by decide) k, byteAt_rom s (c := 4) (by decide) k⟩

/-- Settles O51: of the moves a Busy machine can make, a completion and Reset leave it Idle; a read and a write while
Busy change no register and not CMD. -/
theorem busyHoldsCommandAndOperands : Obligations.BusyHoldsCommandAndOperands := by
  intro s t hb h hbt
  obtain ⟨u, -, hf, hp, -, hst, hcmd, ⟨-, ⟨-, r, rfl⟩ | ⟨hidle, -⟩⟩ | ⟨-, rfl⟩ | ⟨off, width, -, -, rfl⟩ |
    ⟨off, width, w, -, -, rfl⟩⟩ := step_cases h
  · obtain ⟨-, -, -, -, hidle, -⟩ := finish_frame r u
    exact absurd hbt (by simp [hidle])
  · exact absurd hb (by simp [hidle])
  · exact absurd hbt Bool.false_ne_true
  · obtain ⟨hrf, hrp, -, -, hrcmd, -⟩ := hostRead_frame off u
    exact ⟨hrcmd.trans hcmd, hrf.trans hf, hrp.trans hp⟩
  · obtain ⟨hwf, hwp, hwcmd, -⟩ := hostWrite_busy_frame (hst ▸ hb : u.status.busy = true) off w
    exact ⟨hwcmd.trans hcmd, hwf.trans hf, hwp.trans hp⟩

/-- Settles O44. -/
theorem unadmittedAccessHasNoStep : Obligations.UnadmittedAccessHasNoStep :=
  fun _ _ _ _ _ ha h => step_notAdmitted ha h

/-- Settles O46: the offset of `BASE + off` is `off`, whatever BASE is. -/
theorem windowOffsetsAreFromBase : Obligations.WindowOffsetsAreFromBase := by
  intro off w
  rw [memRead, memWrite, offsetOf_base_add]
  exact ⟨rfl, rfl⟩

end Sys2Proof.Proofs
end

section
/-! SUPPORT. The command word (`30_encoding.md`): the decoder and the encoder are inverse to each other between the
words that spell a command and the well-formed commands (R95), and the opcode map of R84 is the formats of R83 written
as masks. -/

namespace Sys2Proof.Proofs

open Sys2Proof.Laws

/-! ### The decoders of one field, said both ways (R80 to R82) -/

theorem bind_eq_ok_iff {ε α β : Type} {x : Except ε α} {f : α → Except ε β} {b : β} :
    (x >>= f) = .ok b ↔ ∃ a, x = .ok a ∧ f a = .ok b := by
  cases x <;> simp [bind, Except.bind]

theorem pure_eq_ok_iff {ε α : Type} {a b : α} : (pure a : Except ε α) = .ok b ↔ a = b := by
  simp [pure, Except.pure]

section Field

variable {x : BitVec 4} {i : Nat}

@[simp] theorem zeroField_eq_ok_iff {u : Unit} : zeroField x = .ok u ↔ x = 0#4 :=
  ⟨zeroField_ok, by rintro rfl; rfl⟩

@[simp] theorem modField_eq_ok_iff {m : Modulus} : modField x = .ok m ↔ x = modBits m :=
  ⟨modField_ok, by rintro rfl; exact modField_modBits m⟩

@[simp] theorem fField_eq_ok_iff : fField x = .ok i ↔ x = indexBits i ∧ isFIndex i = true :=
  ⟨fField_ok, fun ⟨hx, h⟩ => hx ▸ fField_indexBits h⟩

@[simp] theorem pField_eq_ok_iff : pField x = .ok i ↔ x = indexBits i ∧ isPIndex i = true :=
  ⟨pField_ok, fun ⟨hx, h⟩ => hx ▸ pField_indexBits h⟩

end Field

/-! ### The nine formats (R83): the fields a format accepts are those of the command it yields

In each proof the field rules turn the decoder into one condition for each field; what is left is to regroup them. -/

section Formats

variable {fl : Fields} {i : Instr} {opc : BitVec 8}

theorem decodeF3_eq_ok_iff {mk : Modulus → Nat → Nat → Nat → Instr} (hopc : fl.opc = opc) :
    decodeF3 mk fl = .ok i ↔ ∃ m d a b, ⟨opc, modBits m, indexBits d, indexBits a, indexBits b, 0#4, 0#4⟩ = fl ∧
      (isFIndex d && isFIndex a && isFIndex b) = true ∧ mk m d a b = i := by
  cases fl
  simp only [decodeF3, bind_eq_ok_iff, pure_eq_ok_iff, zeroField_eq_ok_iff, modField_eq_ok_iff, fField_eq_ok_iff]
  grind

theorem decodeF2_eq_ok_iff {mk : Modulus → Nat → Nat → Instr} (hopc : fl.opc = opc) :
    decodeF2 mk fl = .ok i ↔ ∃ m d a, ⟨opc, modBits m, indexBits d, indexBits a, 0#4, 0#4, 0#4⟩ = fl ∧
      (isFIndex d && isFIndex a) = true ∧ mk m d a = i := by
  cases fl
  simp only [decodeF2, bind_eq_ok_iff, pure_eq_ok_iff, zeroField_eq_ok_iff, modField_eq_ok_iff, fField_eq_ok_iff]
  grind

theorem decodeP3_eq_ok_iff {mk : Nat → Nat → Nat → Instr} (hopc : fl.opc = opc) :
    decodeP3 mk fl = .ok i ↔ ∃ d a b, ⟨opc, 0#4, indexBits d, indexBits a, indexBits b, 0#4, 0#4⟩ = fl ∧
      (isPIndex d && isPIndex a && isPIndex b) = true ∧ mk d a b = i := by
  cases fl
  simp only [decodeP3, bind_eq_ok_iff, pure_eq_ok_iff, zeroField_eq_ok_iff, pField_eq_ok_iff]
  grind

theorem decodeP2_eq_ok_iff {mk : Nat → Nat → Instr} (hopc : fl.opc = opc) :
    decodeP2 mk fl = .ok i ↔ ∃ d a, ⟨opc, 0#4, indexBits d, indexBits a, 0#4, 0#4, 0#4⟩ = fl ∧
      (isPIndex d && isPIndex a) = true ∧ mk d a = i := by
  cases fl
  simp only [decodeP2, bind_eq_ok_iff, pure_eq_ok_iff, zeroField_eq_ok_iff, pField_eq_ok_iff]
  grind

theorem decodePM_eq_ok_iff {mk : Nat → Nat → Nat → Instr} (hopc : fl.opc = opc) :
    decodePM mk fl = .ok i ↔ ∃ d a b, ⟨opc, 0#4, indexBits d, indexBits a, indexBits b, 0#4, 0#4⟩ = fl ∧
      (isPIndex d && isFIndex a && isPIndex b) = true ∧ mk d a b = i := by
  cases fl
  simp only [decodePM, bind_eq_ok_iff, pure_eq_ok_iff, zeroField_eq_ok_iff, fField_eq_ok_iff, pField_eq_ok_iff]
  grind

theorem decodeP1S_eq_ok_iff {mk : Nat → Instr} (hopc : fl.opc = opc) :
    decodeP1S mk fl = .ok i ↔ ∃ a, ⟨opc, 0#4, 0#4, indexBits a, 0#4, 0#4, 0#4⟩ = fl ∧
      isPIndex a = true ∧ mk a = i := by
  cases fl
  simp only [decodeP1S, bind_eq_ok_iff, pure_eq_ok_iff, zeroField_eq_ok_iff, pField_eq_ok_iff]
  grind

theorem decodeP1D_eq_ok_iff {mk : Nat → Instr} (hopc : fl.opc = opc) :
    decodeP1D mk fl = .ok i ↔ ∃ d, ⟨opc, 0#4, indexBits d, 0#4, 0#4, 0#4, 0#4⟩ = fl ∧
      isPIndex d = true ∧ mk d = i := by
  cases fl
  simp only [decodeP1D, bind_eq_ok_iff, pure_eq_ok_iff, zeroField_eq_ok_iff, pField_eq_ok_iff]
  grind

theorem decodeS2_eq_ok_iff {mk : Nat → Nat → Instr} (hopc : fl.opc = opc) :
    decodeS2 mk fl = .ok i ↔ ∃ a b, ⟨opc, 0#4, 0#4, indexBits a, indexBits b, 0#4, 0#4⟩ = fl ∧
      (isFIndex a && isFIndex b) = true ∧ mk a b = i := by
  cases fl
  simp only [decodeS2, bind_eq_ok_iff, pure_eq_ok_iff, zeroField_eq_ok_iff, fField_eq_ok_iff]
  grind

theorem decodeV_eq_ok_iff {mk : Nat → Nat → Nat → Nat → Instr} (hopc : fl.opc = opc) :
    decodeV mk fl = .ok i ↔ ∃ a b c e, ⟨opc, 0#4, 0#4, indexBits a, indexBits b, indexBits c, indexBits e⟩ = fl ∧
      (isPIndex a && isFIndex b && isFIndex c && isFIndex e) = true ∧ mk a b c e = i := by
  cases fl
  simp only [decodeV, bind_eq_ok_iff, pure_eq_ok_iff, zeroField_eq_ok_iff, fField_eq_ok_iff, pField_eq_ok_iff]
  grind

end Formats

/-! ### The decoder -/

theorem decodeFields_fieldsOf {i : Instr} (h : WellFormed i) : decodeFields (fieldsOf i) = .ok i := by
  cases i
  case fadd | fsub | fmul => exact (decodeF3_eq_ok_iff rfl).2 ⟨_, _, _, _, rfl, h, rfl⟩
  case fsqr | finv | fred => exact (decodeF2_eq_ok_iff rfl).2 ⟨_, _, _, rfl, h, rfl⟩
  case padd => exact (decodeP3_eq_ok_iff rfl).2 ⟨_, _, _, rfl, h, rfl⟩
  case pdbl => exact (decodeP2_eq_ok_iff rfl).2 ⟨_, _, rfl, h, rfl⟩
  case pmul => exact (decodePM_eq_ok_iff rfl).2 ⟨_, _, _, rfl, h, rfl⟩
  case pchk | keychk => exact (decodeP1S_eq_ok_iff rfl).2 ⟨_, rfl, h, rfl⟩
  case pldg => exact (decodeP1D_eq_ok_iff rfl).2 ⟨_, rfl, h, rfl⟩
  case sigchk => exact (decodeS2_eq_ok_iff rfl).2 ⟨_, _, rfl, h, rfl⟩
  case verify => exact (decodeV_eq_ok_iff rfl).2 ⟨_, _, _, _, rfl, h, rfl⟩

/-- Each case of the decoder is one OPC and its format. -/
theorem fieldsOf_of_decodeFields {fl : Fields} {i : Instr} (h : decodeFields fl = .ok i) :
    fieldsOf i = fl ∧ WellFormed i := by
  unfold decodeFields at h
  split at h
  case h_1 hopc | h_2 hopc | h_3 hopc =>
    obtain ⟨m, d, a, b, hfl, hwf, rfl⟩ := (decodeF3_eq_ok_iff hopc).1 h
    exact ⟨hfl, hwf⟩
  case h_4 hopc | h_5 hopc | h_6 hopc =>
    obtain ⟨m, d, a, hfl, hwf, rfl⟩ := (decodeF2_eq_ok_iff hopc).1 h
    exact ⟨hfl, hwf⟩
  case h_7 hopc =>
    obtain ⟨d, a, b, hfl, hwf, rfl⟩ := (decodeP3_eq_ok_iff hopc).1 h
    exact ⟨hfl, hwf⟩
  case h_8 hopc =>
    obtain ⟨d, a, hfl, hwf, rfl⟩ := (decodeP2_eq_ok_iff hopc).1 h
    exact ⟨hfl, hwf⟩
  case h_9 hopc =>
    obtain ⟨d, a, b, hfl, hwf, rfl⟩ := (decodePM_eq_ok_iff hopc).1 h
    exact ⟨hfl, hwf⟩
  case h_10 hopc | h_13 hopc =>
    obtain ⟨a, hfl, hwf, rfl⟩ := (decodeP1S_eq_ok_iff hopc).1 h
    exact ⟨hfl, hwf⟩
  case h_11 hopc =>
    obtain ⟨d, hfl, hwf, rfl⟩ := (decodeP1D_eq_ok_iff hopc).1 h
    exact ⟨hfl, hwf⟩
  case h_12 hopc =>
    obtain ⟨a, b, hfl, hwf, rfl⟩ := (decodeS2_eq_ok_iff hopc).1 h
    exact ⟨hfl, hwf⟩
  case h_14 hopc =>
    obtain ⟨a, b, c, e, hfl, hwf, rfl⟩ := (decodeV_eq_ok_iff hopc).1 h
    exact ⟨hfl, hwf⟩
  case h_15 => cases h

/-- R95: a word spells exactly one command, or none. -/
theorem decode_eq_ok_iff {w : Word} {i : Instr} : decode w = .ok i ↔ encode i = w ∧ WellFormed i := by
  constructor
  · intro h
    obtain ⟨hfl, hwf⟩ := fieldsOf_of_decodeFields h
    exact ⟨by rw [encode, hfl, wordOfFields_fieldsOfWord], hwf⟩
  · rintro ⟨rfl, hwf⟩
    rw [decode, encode, fieldsOfWord_wordOfFields, decodeFields_fieldsOf hwf]

/-! ### The opcode map: each row is an OPC and a format -/

/-- What a format has in one of its fields (R82, R83). -/
inductive FieldKind where
  | unused
  | modulus
  | fIndex
  | pIndex

/-- The bits that are zero in every legal value of the field: all four, all but the lowest of MOD, bit 3 of an `F`
number, bits 3 and 2 of a `P` number. -/
def FieldKind.mask : FieldKind → BitVec 4
  | .unused => 0xF#4
  | .modulus => 0xE#4
  | .fIndex => 0x8#4
  | .pIndex => 0xC#4

section FieldMasks

variable {x : BitVec 4}

@[simp] theorem and_unused_mask_iff : x &&& FieldKind.unused.mask = 0#4 ↔ x = 0#4 := by
  rw [show FieldKind.unused.mask = BitVec.allOnes 4 from rfl, BitVec.and_allOnes]

@[simp] theorem and_modulus_mask_iff : x &&& FieldKind.modulus.mask = 0#4 ↔ ∃ m, x = modBits m := by
  have hmask : ∀ x : BitVec 4, x &&& FieldKind.modulus.mask = 0#4 ↔ x = 0#4 ∨ x = 1#4 := by decide
  rw [hmask]
  exact ⟨fun h => h.elim (⟨.modP, ·⟩) (⟨.modN, ·⟩), fun ⟨m, hm⟩ => by cases m <;> simp [hm, modBits]⟩

@[simp] theorem and_fIndex_mask_iff :
    x &&& FieldKind.fIndex.mask = 0#4 ↔ ∃ i, x = indexBits i ∧ isFIndex i = true := by
  have hmask : ∀ x : BitVec 4, x &&& FieldKind.fIndex.mask = 0#4 ↔ isFIndex x.toNat = true := by decide
  rw [hmask]
  exact ⟨fun h => ⟨x.toNat, fField_ok (if_pos h)⟩, fun ⟨i, hx, hi⟩ => by
    rw [hx, indexBits_toNat (by simp [isFIndex] at hi; omega)]; exact hi⟩

@[simp] theorem and_pIndex_mask_iff :
    x &&& FieldKind.pIndex.mask = 0#4 ↔ ∃ i, x = indexBits i ∧ isPIndex i = true := by
  have hmask : ∀ x : BitVec 4, x &&& FieldKind.pIndex.mask = 0#4 ↔ isPIndex x.toNat = true := by decide
  rw [hmask]
  exact ⟨fun h => ⟨x.toNat, pField_ok (if_pos h)⟩, fun ⟨i, hx, hi⟩ => by
    rw [hx, indexBits_toNat (by simp [isPIndex] at hi; omega)]; exact hi⟩

end FieldMasks

/-- What a format has in the six fields after OPC. -/
structure CommandFormat where
  mod : FieldKind
  d : FieldKind
  a : FieldKind
  b : FieldKind
  c : FieldKind
  e : FieldKind

/-- Every field after OPC is legal for the format. -/
def CommandFormat.Admits (fmt : CommandFormat) (fl : Fields) : Prop :=
  fl.mod &&& fmt.mod.mask = 0#4 ∧ fl.d &&& fmt.d.mask = 0#4 ∧ fl.a &&& fmt.a.mask = 0#4 ∧
    fl.b &&& fmt.b.mask = 0#4 ∧ fl.c &&& fmt.c.mask = 0#4 ∧ fl.e &&& fmt.e.mask = 0#4

/-- A row of R84 before it is printed as a pattern and a mask. -/
structure FormatRow where
  mnemonic : String
  opc : BitVec 8
  format : CommandFormat

/-- The row as printed: the pattern holds OPC, the mask all of OPC and what the format wants zero. -/
def FormatRow.print (row : FormatRow) : OpcodeRow where
  mnemonic := row.mnemonic
  pattern := wordOfFields ⟨row.opc, 0#4, 0#4, 0#4, 0#4, 0#4, 0#4⟩
  mask := wordOfFields ⟨0xFF#8, row.format.mod.mask, row.format.d.mask, row.format.a.mask, row.format.b.mask,
    row.format.c.mask, row.format.e.mask⟩

theorem fieldsOfWord_injective : Function.Injective fieldsOfWord :=
  Function.LeftInverse.injective wordOfFields_fieldsOfWord

theorem fieldsOfWord_and (w v : Word) : fieldsOfWord (w &&& v) =
    ⟨(fieldsOfWord w).opc &&& (fieldsOfWord v).opc, (fieldsOfWord w).mod &&& (fieldsOfWord v).mod,
      (fieldsOfWord w).d &&& (fieldsOfWord v).d, (fieldsOfWord w).a &&& (fieldsOfWord v).a,
      (fieldsOfWord w).b &&& (fieldsOfWord v).b, (fieldsOfWord w).c &&& (fieldsOfWord v).c,
      (fieldsOfWord w).e &&& (fieldsOfWord v).e⟩ := by
  simp only [fieldsOfWord, BitVec.extractLsb'_and]

/-- A word matches a row iff it has the row's OPC and its other fields are legal for the row's format. -/
theorem rowMatches_print_iff {w : Word} {row : FormatRow} :
    rowMatches w row.print = true ↔ (fieldsOfWord w).opc = row.opc ∧ row.format.Admits (fieldsOfWord w) := by
  have hopc : (fieldsOfWord w).opc &&& 0xFF#8 = (fieldsOfWord w).opc := BitVec.and_allOnes
  rw [rowMatches, beq_iff_eq, ← fieldsOfWord_injective.eq_iff, fieldsOfWord_and, FormatRow.print,
    fieldsOfWord_wordOfFields, fieldsOfWord_wordOfFields, Fields.mk.injEq, hopc, CommandFormat.Admits]

/-! The nine formats, named as in R83. -/

def formatF3 : CommandFormat := ⟨.modulus, .fIndex, .fIndex, .fIndex, .unused, .unused⟩
def formatF2 : CommandFormat := ⟨.modulus, .fIndex, .fIndex, .unused, .unused, .unused⟩
def formatP3 : CommandFormat := ⟨.unused, .pIndex, .pIndex, .pIndex, .unused, .unused⟩
def formatP2 : CommandFormat := ⟨.unused, .pIndex, .pIndex, .unused, .unused, .unused⟩
def formatPM : CommandFormat := ⟨.unused, .pIndex, .fIndex, .pIndex, .unused, .unused⟩
def formatP1S : CommandFormat := ⟨.unused, .unused, .pIndex, .unused, .unused, .unused⟩
def formatP1D : CommandFormat := ⟨.unused, .pIndex, .unused, .unused, .unused, .unused⟩
def formatS2 : CommandFormat := ⟨.unused, .unused, .fIndex, .fIndex, .unused, .unused⟩
def formatV : CommandFormat := ⟨.unused, .unused, .pIndex, .fIndex, .fIndex, .fIndex⟩

/-! ### A format's decoder accepts what the format admits -/

theorem exists_bind_eq_ok_iff {ε α β : Type} {x : Except ε α} {f : α → Except ε β} :
    (∃ b, (x >>= f) = .ok b) ↔ ∃ a, x = .ok a ∧ ∃ b, f a = .ok b := by
  cases x <;> simp [bind, Except.bind]

theorem exists_pure_eq_ok {ε α : Type} (a : α) : ∃ b, (pure a : Except ε α) = .ok b :=
  ⟨a, rfl⟩

section FormatMasks

variable {fl : Fields}

theorem exists_decodeF3_iff {mk : Modulus → Nat → Nat → Nat → Instr} :
    (∃ i, decodeF3 mk fl = .ok i) ↔ formatF3.Admits fl := by
  simp [decodeF3, exists_bind_eq_ok_iff, exists_pure_eq_ok, formatF3, CommandFormat.Admits, -bind_pure_comp]

theorem exists_decodeF2_iff {mk : Modulus → Nat → Nat → Instr} :
    (∃ i, decodeF2 mk fl = .ok i) ↔ formatF2.Admits fl := by
  simp [decodeF2, exists_bind_eq_ok_iff, exists_pure_eq_ok, formatF2, CommandFormat.Admits, -bind_pure_comp]

theorem exists_decodeP3_iff {mk : Nat → Nat → Nat → Instr} :
    (∃ i, decodeP3 mk fl = .ok i) ↔ formatP3.Admits fl := by
  simp [decodeP3, exists_bind_eq_ok_iff, exists_pure_eq_ok, formatP3, CommandFormat.Admits, -bind_pure_comp]

theorem exists_decodeP2_iff {mk : Nat → Nat → Instr} :
    (∃ i, decodeP2 mk fl = .ok i) ↔ formatP2.Admits fl := by
  simp [decodeP2, exists_bind_eq_ok_iff, exists_pure_eq_ok, formatP2, CommandFormat.Admits, -bind_pure_comp]

theorem exists_decodePM_iff {mk : Nat → Nat → Nat → Instr} :
    (∃ i, decodePM mk fl = .ok i) ↔ formatPM.Admits fl := by
  simp [decodePM, exists_bind_eq_ok_iff, exists_pure_eq_ok, formatPM, CommandFormat.Admits, -bind_pure_comp]

theorem exists_decodeP1S_iff {mk : Nat → Instr} :
    (∃ i, decodeP1S mk fl = .ok i) ↔ formatP1S.Admits fl := by
  simp [decodeP1S, exists_bind_eq_ok_iff, exists_pure_eq_ok, formatP1S, CommandFormat.Admits, -bind_pure_comp]

theorem exists_decodeP1D_iff {mk : Nat → Instr} :
    (∃ i, decodeP1D mk fl = .ok i) ↔ formatP1D.Admits fl := by
  simp [decodeP1D, exists_bind_eq_ok_iff, exists_pure_eq_ok, formatP1D, CommandFormat.Admits, -bind_pure_comp]

theorem exists_decodeS2_iff {mk : Nat → Nat → Instr} :
    (∃ i, decodeS2 mk fl = .ok i) ↔ formatS2.Admits fl := by
  simp [decodeS2, exists_bind_eq_ok_iff, exists_pure_eq_ok, formatS2, CommandFormat.Admits, -bind_pure_comp]

theorem exists_decodeV_iff {mk : Nat → Nat → Nat → Nat → Instr} :
    (∃ i, decodeV mk fl = .ok i) ↔ formatV.Admits fl := by
  simp [decodeV, exists_bind_eq_ok_iff, exists_pure_eq_ok, formatV, CommandFormat.Admits, -bind_pure_comp]

end FormatMasks

/-! ### The opcode map and the decoder -/

/-- R84's table, each row with its format. -/
def formatRows : List FormatRow :=
  [⟨"FADD", 0x10#8, formatF3⟩, ⟨"FSUB", 0x11#8, formatF3⟩, ⟨"FMUL", 0x12#8, formatF3⟩, ⟨"FSQR", 0x13#8, formatF2⟩,
    ⟨"FINV", 0x14#8, formatF2⟩, ⟨"FRED", 0x15#8, formatF2⟩, ⟨"PADD", 0x20#8, formatP3⟩, ⟨"PDBL", 0x21#8, formatP2⟩,
    ⟨"PMUL", 0x22#8, formatPM⟩, ⟨"PCHK", 0x23#8, formatP1S⟩, ⟨"PLDG", 0x24#8, formatP1D⟩,
    ⟨"SIGCHK", 0x30#8, formatS2⟩, ⟨"KEYCHK", 0x31#8, formatP1S⟩, ⟨"VERIFY", 0x40#8, formatV⟩]

/-- The patterns and masks the spec prints are those of the formats. -/
theorem opcodeTable_eq : opcodeTable = formatRows.map FormatRow.print := by
  decide

/-- Fields with the OPC of a row are decoded by the row's format. -/
theorem exists_decodeFields_iff {fl : Fields} :
    ∀ row ∈ formatRows, fl.opc = row.opc → ((∃ i, decodeFields fl = .ok i) ↔ row.format.Admits fl) := by
  obtain ⟨opc, mod, d, a, b, c, e⟩ := fl
  simp only [formatRows, List.forall_mem_cons, List.not_mem_nil, false_imp_iff, implies_true, and_true]
  refine ⟨?_, ?_, ?_, ?_, ?_, ?_, ?_, ?_, ?_, ?_, ?_, ?_, ?_, ?_⟩ <;> rintro rfl
  exacts [exists_decodeF3_iff, exists_decodeF3_iff, exists_decodeF3_iff, exists_decodeF2_iff, exists_decodeF2_iff,
    exists_decodeF2_iff, exists_decodeP3_iff, exists_decodeP2_iff, exists_decodePM_iff, exists_decodeP1S_iff,
    exists_decodeP1D_iff, exists_decodeS2_iff, exists_decodeP1S_iff, exists_decodeV_iff]

/-- The mnemonic and the OPC say the same of a command. -/
theorem mnemonicOf_eq_iff (i : Instr) : ∀ row ∈ formatRows, mnemonicOf i = row.mnemonic ↔ opcOf i = row.opc := by
  cases i <;> simp [formatRows, mnemonicOf, opcOf]

theorem opc_fieldsOf (i : Instr) : (fieldsOf i).opc = opcOf i := by
  cases i <;> rfl

/-- R84: a word matches a row iff it decodes to a command of the row's mnemonic. Both sides fix OPC, and with it the
format, whose decoder accepts exactly the fields that the mask lets through. -/
theorem rowMatches_iff_decode {w : Word} {row : OpcodeRow} (hrow : row ∈ opcodeTable) :
    rowMatches w row = true ↔ ∃ i, decode w = .ok i ∧ mnemonicOf i = row.mnemonic := by
  rw [opcodeTable_eq] at hrow
  obtain ⟨row, hmem, rfl⟩ := List.mem_map.1 hrow
  rw [rowMatches_print_iff]
  constructor
  · rintro ⟨hopc, hadm⟩
    obtain ⟨i, hi⟩ := (exists_decodeFields_iff row hmem hopc).2 hadm
    obtain ⟨hfl, -⟩ := fieldsOf_of_decodeFields hi
    exact ⟨i, hi, (mnemonicOf_eq_iff i row hmem).2 (by rw [← opc_fieldsOf, hfl, hopc])⟩
  · rintro ⟨i, hi, hname⟩
    obtain ⟨hfl, -⟩ := fieldsOf_of_decodeFields hi
    have hopc : (fieldsOfWord w).opc = row.opc := by
      rw [← hfl, opc_fieldsOf]
      exact (mnemonicOf_eq_iff i row hmem).1 hname
    exact ⟨hopc, (exists_decodeFields_iff row hmem hopc).1 ⟨i, hi⟩⟩

theorem eq_of_mnemonic_eq : ∀ row ∈ opcodeTable, ∀ row' ∈ opcodeTable, row.mnemonic = row'.mnemonic → row = row' := by
  decide

theorem exists_row_of_command (i : Instr) : ∃ row ∈ opcodeTable, mnemonicOf i = row.mnemonic := by
  cases i <;> simp [opcodeTable, mnemonicOf]

/-! ### The obligations -/

/-- Settles O1. -/
theorem decodeOfEncodeIsTheCommand : Obligations.DecodeOfEncodeIsTheCommand :=
  fun _ h => decode_eq_ok_iff.2 ⟨rfl, h⟩

/-- Settles O2. -/
theorem decodedWordIsTheEncoding : Obligations.DecodedWordIsTheEncoding :=
  fun _ _ h => decode_eq_ok_iff.1 h

/-- Settles O3: two rows that match one word have the mnemonic of the command it decodes to. -/
theorem decodeAgreesWithTheOpcodeMap : Obligations.DecodeAgreesWithTheOpcodeMap := by
  refine ⟨fun w row hrow => rowMatches_iff_decode hrow, fun w row hrow row' hrow' h h' => ?_⟩
  obtain ⟨i, hi, hname⟩ := (rowMatches_iff_decode hrow).1 h
  obtain ⟨i', hi', hname'⟩ := (rowMatches_iff_decode hrow').1 h'
  obtain rfl : i = i' := Except.ok.inj (hi.symm.trans hi')
  exact eq_of_mnemonic_eq row hrow row' hrow' (hname.symm.trans hname')

/-- Settles O4. -/
theorem exampleWordsDecode : Obligations.ExampleWordsDecode := by
  unfold Obligations.ExampleWordsDecode
  decide

end Sys2Proof.Proofs
end

section
/-! SUPPORT. What every command does whatever its operands (`30_encoding.md` R95, R100, R101), and that the Engine's
fairness and admitted accesses bring every accepted command to its completion. -/

namespace Sys2Proof.Proofs

open Sys2Proof.Machine Sys2Proof.Safety Sys2Proof.Laws

section Complete

variable {s : State} {i : Instr}

/-- R229 (1): the check of the register numbers comes before anything else a command does. -/
theorem finish_requireLegal_of_not (h : ¬WellFormed i) (rest : Unit → Except CmdError CmdResult) (s : State) :
    finish (requireLegal i >>= rest) s = failed s .illegalCommand := by
  rw [requireLegal_of_not h]
  rfl

theorem engineTurn_of_decode (hb : s.status.busy = true) (h : decode s.cmd = .ok i) : engineTurn s = exec i s := by
  rw [engineTurn, if_pos hb, complete, h]

theorem engineTurn_of_illegal (hb : s.status.busy = true) (h : ∀ i, decode s.cmd ≠ .ok i) :
    engineTurn s = .next (failed s .illegalCommand) := by
  rw [engineTurn, if_pos hb, complete]
  cases hd : decode s.cmd with
  | ok i => exact absurd hd (h i)
  | error e => rfl

/-- R84: a word that matches no row spells no command. -/
theorem decode_ne_ok_of_no_row {w : Word} (h : ∀ row ∈ opcodeTable, rowMatches w row = false) (i : Instr) :
    decode w ≠ .ok i := by
  intro hi
  obtain ⟨row, hrow, hname⟩ := exists_row_of_command i
  have hmatch : rowMatches w row = true := (rowMatches_iff_decode hrow).2 ⟨i, hi, hname⟩
  exact Bool.false_ne_true ((h row hrow).symm.trans hmatch)

end Complete

/-! ### A Busy machine makes progress -/

/-- The command has completed (R100). -/
def Completed (s : State) : Prop := s.status.busy = false ∧ s.status.done = true

section Progress

variable {s : State} {ts : List Turn}

theorem engineTurn_completes (hb : s.status.busy = true) : ∃ t, engineTurn s = .next t ∧ Completed t := by
  obtain ⟨r, hr⟩ := engineTurn_busy hb
  obtain ⟨-, -, -, -, hidle, hdone⟩ := finish_frame r s
  exact ⟨_, hr, hidle, hdone⟩

/-- Every ordinary move of a Busy machine completes the command, or leaves it Busy with one move less to come. -/
theorem step_ordinary {turn : Turn} (hb : s.status.busy = true) (h : s.env.turns = turn :: ts)
    (hturn : OrdinaryTurn turn) :
    ∃ t, step s = .next t ∧ (Completed t ∨ t.status.busy = true ∧ t.env.turns = ts) := by
  cases turn with
  | engine =>
    obtain ⟨t, ht, hdone⟩ := engineTurn_completes (s := withTurns ts s) hb
    exact ⟨t, (step_engine h).trans ht, .inl hdone⟩
  | reset => exact hturn.elim
  | hostRead off width =>
    obtain ⟨-, -, -, hst, -, hts⟩ := hostRead_frame off (withTurns ts s)
    exact ⟨_, step_hostRead h hturn, .inr ⟨by rw [hst]; exact hb, hts⟩⟩
  | hostWrite off width w =>
    obtain ⟨-, -, -, hbusy, -⟩ := hostWrite_busy_frame (s := withTurns ts s) hb off w
    exact ⟨_, step_hostWrite h hturn, .inr ⟨hbusy, by rw [hostWrite_env]; rfl⟩⟩

theorem run_succ {s t : core.State} (h : core.step s = .next t) (k : Nat) : core.run (k + 1) s = core.run k t := by
  rw [Host.Core.run, h]

/-- Each move taken brings the Engine's turn nearer, and an empty schedule is that turn. -/
theorem exists_run_completed (hb : s.status.busy = true) (h : s.env.turns = ts)
    (hord : ∀ turn ∈ ts, OrdinaryTurn turn) :
    ∃ k t, k ≤ ts.length + 1 ∧ core.run k s = .next t ∧ Completed t := by
  induction ts generalizing s with
  | nil =>
    obtain ⟨t, ht, hdone⟩ := engineTurn_completes hb
    exact ⟨1, t, Nat.le_refl 1, run_succ ((step_none h).trans ht) 0, hdone⟩
  | cons turn ts ih =>
    obtain ⟨hturn, hrest⟩ := List.forall_mem_cons.1 hord
    obtain ⟨t, ht, hdone | ⟨hbusy, hts⟩⟩ := step_ordinary hb h hturn
    · exact ⟨1, t, Nat.le_add_left 1 _, run_succ ht 0, hdone⟩
    · obtain ⟨k, u, hk, hrun, hdone⟩ := ih hbusy hts hrest
      exact ⟨k + 1, u, Nat.succ_le_succ hk, (run_succ ht k).trans hrun, hdone⟩

end Progress

/-! ### The obligations -/

/-- Settles O5: the meaning of every command begins with the check of its register numbers. -/
theorem illFormedCommandIsIllegal : Obligations.IllFormedCommandIsIllegal := by
  intro i s h
  cases i <;> exact congrArg Host.Outcome.next (finish_requireLegal_of_not h _ s)

/-- Settles O7: a word that matches no row of the opcode map decodes to no command. -/
theorem illegalWordCompletesWithIllegalCommand : Obligations.IllegalWordCompletesWithIllegalCommand := by
  intro s hb hrows
  have hillegal : ∀ i, decode s.cmd ≠ .ok i := decode_ne_ok_of_no_row hrows
  refine ⟨rfl, fun h => ?_, fun ts h => ?_⟩
  · exact (step_none h).trans (engineTurn_of_illegal hb hillegal)
  · exact (step_engine h).trans (engineTurn_of_illegal (s := withTurns ts s) hb hillegal)

/-- Settles O9: every meaning ends in a completion. -/
theorem everyCommandCompletes : Obligations.EveryCommandCompletes := by
  intro i s
  obtain ⟨r, hr, -⟩ := exec_eq_finish i s
  obtain ⟨hie, -, -, -, hidle, hdone⟩ := finish_frame r s
  exact ⟨_, hr, hidle, hdone, by rw [irq_eq, hie, hdone, Bool.and_true]⟩

/-- Settles O29: the registers by `exec_registers_frame`, the rest because every meaning ends in a completion. -/
theorem commandWritesOnlyItsDestination : Obligations.CommandWritesOnlyItsDestination := by
  intro i s t h
  obtain ⟨hF, hP, hie, hcmd⟩ := exec_registers_frame h
  obtain ⟨r, hr, -⟩ := exec_eq_finish i s
  obtain rfl : finish r s = t := by rw [hr] at h; exact Host.Outcome.next.inj h
  obtain ⟨-, -, henv, hovr, -⟩ := finish_frame r s
  refine ⟨fun j hj => ?_, fun j hj => ?_, hie, hcmd, hovr, henv⟩
  · rw [← readF_fin, ← readF_fin, hF j hj]
  · rw [← readP_fin, ← readP_fin, hP j hj]

/-- Settles O54: the schedule is the measure. -/
theorem everyAcceptedCommandCompletes : Obligations.EveryAcceptedCommandCompletes :=
  fun _ hb hord => exists_run_completed hb rfl hord

/-- Settles O6. -/
theorem stepRunsTheDecodedCommand : Obligations.StepRunsTheDecodedCommand := by
  refine fun s i hb hi => ⟨fun h => ?_, fun ts h => ?_⟩
  · exact (step_none h).trans (engineTurn_of_decode hb hi)
  · exact (step_engine h).trans (engineTurn_of_decode (s := withTurns ts s) hb hi)

end Sys2Proof.Proofs
end

section
/-! SUPPORT. The field commands (`40_field_arithmetic.md` R120 to R125): how the checks of R95 and R111 decide a
command's completion, and the value each command writes, as arithmetic modulo `m`. -/

namespace Sys2Proof.Proofs

open Sys2Proof.Machine Sys2Proof.Safety Sys2Proof.Laws

/-! ### The values -/

/-- R113 over the integers: the model's two cases are the difference modulo `m`. -/
theorem fsub_eq_emod {a b m : Nat} (ha : a < m) (hb : b < m) : fsub a b m = (((a : Int) - b) % m).toNat := by
  have hwrap : ((a : Int) - b) % m = ((a + m - b : Nat) : Int) % m := by
    rw [← Int.add_emod_right]
    congr 1
    omega
  rw [fsub_eq_mod ha hb, hwrap, ← Int.natCast_emod, Int.toNat_natCast]

/-- R117: one conditional subtraction reduces every 256-bit value. -/
theorem fred_modulusValue (v : U256) (m : Modulus) : fred v.toNat (modulusValue m) = v.toNat % modulusValue m :=
  fred_eq_mod (v.isLt.trans (lt_two_modulusValue m))

/-! ### The checks -/

@[simp] theorem isFIndex_fin (i : Fin 8) : isFIndex i = true := decide_eq_true i.isLt

theorem isFIndex_unary (d a : Fin 8) : (isFIndex d && isFIndex a) = true := by simp

theorem isFIndex_binary (d a b : Fin 8) : (isFIndex d && isFIndex a && isFIndex b) = true := by simp

section WellFormed

variable (m : Modulus) (d a b : Fin 8)

theorem wellFormed_fadd : WellFormed (.fadd m d a b) := isFIndex_binary d a b
theorem wellFormed_fsub : WellFormed (.fsub m d a b) := isFIndex_binary d a b
theorem wellFormed_fmul : WellFormed (.fmul m d a b) := isFIndex_binary d a b
theorem wellFormed_fsqr : WellFormed (.fsqr m d a) := isFIndex_unary d a
theorem wellFormed_finv : WellFormed (.finv m d a) := isFIndex_unary d a
theorem wellFormed_fred : WellFormed (.fred m d a) := isFIndex_unary d a

end WellFormed

section Checks

variable {i : Instr} {m : Nat} {d a b : Fin 8} {s : State}

theorem finish_requireLegal_of_wellFormed (h : WellFormed i) (rest : Unit → Except CmdError CmdResult) (s : State) :
    finish (requireLegal i >>= rest) s = finish (rest ()) s := by
  rw [requireLegal_of_wellFormed h]
  rfl

theorem reducedOperand_bind_of_lt {β : Type} (h : s.f[a.val].toNat < m) (rest : Nat → Except CmdError β) :
    reducedOperand s m a >>= rest = rest s.f[a.val].toNat := by
  rw [reducedOperand_eq, fValue_fin, if_pos h]
  rfl

theorem reducedOperand_bind_of_le {β : Type} (h : m ≤ s.f[a.val].toNat) (rest : Nat → Except CmdError β) :
    reducedOperand s m a >>= rest = .error .operandRange := by
  rw [reducedOperand_eq, fValue_fin, if_neg h.not_gt]
  rfl

/-- A legal command whose first operand is reduced goes on with its value. -/
theorem finish_operand_of_lt (hwf : WellFormed i) (h : s.f[a.val].toNat < m)
    (rest : Nat → Except CmdError CmdResult) :
    finish (requireLegal i >>= fun _ => reducedOperand s m a >>= rest) s = finish (rest s.f[a.val].toNat) s := by
  rw [finish_requireLegal_of_wellFormed hwf, reducedOperand_bind_of_lt h]

/-- A legal command whose first operand is not reduced ends there (R111). -/
theorem finish_operand_of_le (hwf : WellFormed i) (h : m ≤ s.f[a.val].toNat)
    (rest : Nat → Except CmdError CmdResult) :
    finish (requireLegal i >>= fun _ => reducedOperand s m a >>= rest) s = failed s .operandRange := by
  rw [finish_requireLegal_of_wellFormed hwf, reducedOperand_bind_of_le h, finish_error]

/-! ### The commands of two operands -/

/-- What FADD, FSUB and FMUL share: the checks, A before B, then `F[D] <- op(a, b, m)` (R120, R121, R122). -/
def binaryResult (i : Instr) (op : Nat → Nat → Nat → Nat) (m : Nat) (d a b : Fin 8) (s : State) :
    Except CmdError CmdResult := do
  requireLegal i
  let x ← reducedOperand s m a
  let y ← reducedOperand s m b
  return .toF d (op x y m)

theorem finish_binaryResult_of_lt (hwf : WellFormed i) (op : Nat → Nat → Nat → Nat) (ha : s.f[a.val].toNat < m)
    (hb : s.f[b.val].toNat < m) :
    finish (binaryResult i op m d a b s) s = wroteF s d (op s.f[a.val].toNat s.f[b.val].toNat m) := by
  rw [binaryResult, finish_operand_of_lt hwf ha, reducedOperand_bind_of_lt hb]
  exact finish_toF d _ s

theorem finish_binaryResult_of_le (hwf : WellFormed i) (op : Nat → Nat → Nat → Nat)
    (h : m ≤ s.f[a.val].toNat ∨ m ≤ s.f[b.val].toNat) :
    finish (binaryResult i op m d a b s) s = failed s .operandRange := by
  rw [binaryResult]
  rcases lt_or_ge s.f[a.val].toNat m with ha | ha
  · rw [finish_operand_of_lt hwf ha, reducedOperand_bind_of_le (h.resolve_left ha.not_ge), finish_error]
  · exact finish_operand_of_le hwf ha _

/-- A command of two operands writes the value `v` its operation has on reduced operands, or raises
`OperandRange`. -/
theorem exec_of_binaryResult {op : Nat → Nat → Nat → Nat} {v : Nat} (hwf : WellFormed i)
    (hexec : exec i s = .next (finish (binaryResult i op m d a b s) s))
    (hv : s.f[a.val].toNat < m → s.f[b.val].toNat < m → op s.f[a.val].toNat s.f[b.val].toNat m = v) :
    (s.f[a.val].toNat < m → s.f[b.val].toNat < m → exec i s = .next (wroteF s d v)) ∧
    (m ≤ s.f[a.val].toNat ∨ m ≤ s.f[b.val].toNat → exec i s = .next (failed s .operandRange)) := by
  refine ⟨fun ha hb => ?_, fun h => ?_⟩
  · rw [hexec, finish_binaryResult_of_lt hwf op ha hb, hv ha hb]
  · rw [hexec, finish_binaryResult_of_le hwf op h]

end Checks

/-! ### The commands of one operand -/

section Unary

variable {m : Modulus} {a : Fin 8} {s : State} (d : Fin 8)

theorem exec_fsqr_of_lt (h : s.f[a.val].toNat < modulusValue m) :
    exec (.fsqr m d a) s = .next (wroteF s d (s.f[a.val].toNat * s.f[a.val].toNat % modulusValue m)) :=
  congrArg Host.Outcome.next ((finish_operand_of_lt (wellFormed_fsqr m d a) h _).trans (finish_toF d _ s))

theorem exec_fsqr_of_le (h : modulusValue m ≤ s.f[a.val].toNat) :
    exec (.fsqr m d a) s = .next (failed s .operandRange) :=
  congrArg Host.Outcome.next (finish_operand_of_le (wellFormed_fsqr m d a) h _)

theorem exec_finv_of_lt (h : s.f[a.val].toNat < modulusValue m) :
    exec (.finv m d a) s = .next (finish ((finv s.f[a.val].toNat (modulusValue m)).map (.toF d)) s) := by
  refine congrArg Host.Outcome.next ((finish_operand_of_lt (wellFormed_finv m d a) h _).trans ?_)
  cases finv s.f[a.val].toNat (modulusValue m) <;> rfl

theorem exec_finv_of_le (h : modulusValue m ≤ s.f[a.val].toNat) :
    exec (.finv m d a) s = .next (failed s .operandRange) :=
  congrArg Host.Outcome.next (finish_operand_of_le (wellFormed_finv m d a) h _)

theorem exec_fred (m : Modulus) (d a : Fin 8) (s : State) :
    exec (.fred m d a) s = .next (wroteF s d (fred s.f[a.val].toNat (modulusValue m))) := by
  rw [← fValue_fin]
  exact congrArg Host.Outcome.next
    ((finish_requireLegal_of_wellFormed (wellFormed_fred m d a) _ s).trans (finish_toF d _ s))

end Unary

/-! ### The obligations -/

/-- Settles O10. -/
theorem faddWritesTheModularSum : Obligations.FaddWritesTheModularSum :=
  fun m d a b _ => exec_of_binaryResult (op := fadd) (wellFormed_fadd m d a b) rfl fadd_eq_mod

/-- Settles O11. -/
theorem fsubWritesTheModularDifference : Obligations.FsubWritesTheModularDifference :=
  fun m d a b _ => exec_of_binaryResult (op := fsub) (wellFormed_fsub m d a b) rfl fsub_eq_emod

/-- Settles O12. -/
theorem fmulWritesTheModularProduct : Obligations.FmulWritesTheModularProduct :=
  fun m d a b _ => exec_of_binaryResult (op := fmul) (wellFormed_fmul m d a b) rfl fun _ _ => rfl

/-- Settles O13: on a reduced operand and on any other, FSQR and FMUL with the operand twice answer the same. -/
theorem fsqrWritesTheModularSquare : Obligations.FsqrWritesTheModularSquare := by
  intro m d a s
  obtain ⟨hwrites, hraises⟩ := fmulWritesTheModularProduct m d a a s
  refine ⟨?_, exec_fsqr_of_lt d, exec_fsqr_of_le d⟩
  rcases lt_or_ge s.f[a.val].toNat (modulusValue m) with h | h
  · rw [exec_fsqr_of_lt d h, hwrites h h]
  · rw [exec_fsqr_of_le d h, hraises (.inl h)]

/-- Settles O14: the modulus is prime, so `finv` of a reduced value that is not 0 is its one inverse. -/
theorem finvWritesTheModularInverse : Obligations.FinvWritesTheModularInverse := by
  intro m d a s
  refine ⟨fun h h0 => ?_, exec_finv_of_le d, fun h0 => ?_⟩
  · obtain ⟨x, hx, hpos, hlt, hinv⟩ :=
      finv_of_pos (modulusValue_prime m) (modulusValue_lt m) (Nat.pos_of_ne_zero h0) h
    refine ⟨x, hpos, hlt, hinv, fun y hy hy' => inverse_unique hy hlt hy' hinv, ?_⟩
    rw [exec_finv_of_lt d h, hx, Except.map, finish_toF]
  · have h : s.f[a.val].toNat < modulusValue m := h0 ▸ (modulusValue_prime m).pos
    rw [exec_finv_of_lt d h, finv, if_pos h0, Except.map, finish_error]

/-- Settles O15. -/
theorem fredWritesTheReduction : Obligations.FredWritesTheReduction :=
  fun m d a s => by rw [exec_fred, fred_modulusValue]

end Sys2Proof.Proofs
end

section
/-! SUPPORT. The point commands (`41_point_arithmetic.md` R150 to R154): how the checks of R95 and R147 decide a
command's completion, and each case of the point formulas. -/

namespace Sys2Proof.Proofs

open Sys2Proof.Machine Sys2Proof.Safety Sys2Proof.Laws

/-! ### The checks -/

@[simp] theorem isPIndex_fin (i : Fin 4) : isPIndex i = true := decide_eq_true i.isLt

section WellFormed

variable (d a b : Fin 4)

theorem wellFormed_padd : WellFormed (.padd d a b) := by simp [WellFormed, Instr.wellFormed]
theorem wellFormed_pdbl : WellFormed (.pdbl d a) := by simp [WellFormed, Instr.wellFormed]
theorem wellFormed_pmul (k : Fin 8) : WellFormed (.pmul d k b) := by simp [WellFormed, Instr.wellFormed]
theorem wellFormed_pchk : WellFormed (.pchk a) := isPIndex_fin a
theorem wellFormed_pldg : WellFormed (.pldg d) := isPIndex_fin d

end WellFormed

section Checks

variable {a : Fin 4} {s : State}

theorem pointOperand_bind_of_accepted {β : Type} (h : AcceptedPoint s.p[a.val])
    (rest : CurvePoint → Except CmdError β) : pointOperand s a >>= rest = rest (pointValue s.p[a.val]) := by
  rw [← readP_fin] at h ⊢
  rw [pointOperand_of_accepted h]
  rfl

theorem pointOperand_bind_of_not {β : Type} (h : ¬AcceptedPoint s.p[a.val])
    (rest : CurvePoint → Except CmdError β) : pointOperand s a >>= rest = .error .operandRange := by
  rw [← readP_fin] at h
  rw [pointOperand_of_not h]
  rfl

/-- A command that writes a point completes as the computation of the point does. -/
theorem finish_bind_toP_of_ok {x : Except CmdError CurvePoint} {r : CurvePoint} (h : x = .ok r) (d : Fin 4)
    (s : State) : finish (x >>= fun r => pure (.toP d r)) s = wroteP s d (pointOf r) := by
  rw [h]
  exact finish_toP d r s

theorem finish_bind_toP_of_error {x : Except CmdError CurvePoint} {e : CmdError} (h : x = .error e) (d : Fin 4)
    (s : State) : finish (x >>= fun r => pure (.toP d r)) s = failed s e := by
  rw [h]
  rfl

end Checks

/-! ### PADD, PDBL and PMUL by the outcome of their computation -/

section Commands

variable {a b : Fin 4} {k : Fin 8} {s : State} {r : CurvePoint} {e : CmdError} (d : Fin 4)

theorem exec_padd_of_accepted (ha : AcceptedPoint s.p[a.val]) (hb : AcceptedPoint s.p[b.val]) :
    exec (.padd d a b) s =
      .next (finish (padd (pointValue s.p[a.val]) (pointValue s.p[b.val]) >>= fun r => pure (.toP d r)) s) := by
  refine congrArg Host.Outcome.next ((finish_requireLegal_of_wellFormed (wellFormed_padd d a b) _ s).trans ?_)
  rw [pointOperand_bind_of_accepted ha, pointOperand_bind_of_accepted hb]

theorem exec_padd_of_ok (ha : AcceptedPoint s.p[a.val]) (hb : AcceptedPoint s.p[b.val])
    (h : padd (pointValue s.p[a.val]) (pointValue s.p[b.val]) = .ok r) :
    exec (.padd d a b) s = .next (wroteP s d (pointOf r)) := by
  rw [exec_padd_of_accepted d ha hb, finish_bind_toP_of_ok h]

theorem exec_padd_of_error (ha : AcceptedPoint s.p[a.val]) (hb : AcceptedPoint s.p[b.val])
    (h : padd (pointValue s.p[a.val]) (pointValue s.p[b.val]) = .error e) :
    exec (.padd d a b) s = .next (failed s e) := by
  rw [exec_padd_of_accepted d ha hb, finish_bind_toP_of_error h]

theorem exec_padd_of_not (h : ¬AcceptedPoint s.p[a.val] ∨ ¬AcceptedPoint s.p[b.val]) :
    exec (.padd d a b) s = .next (failed s .operandRange) := by
  refine congrArg Host.Outcome.next ((finish_requireLegal_of_wellFormed (wellFormed_padd d a b) _ s).trans ?_)
  by_cases ha : AcceptedPoint s.p[a.val]
  · rw [pointOperand_bind_of_accepted ha, pointOperand_bind_of_not (h.resolve_left (not_not.2 ha)), finish_error]
  · rw [pointOperand_bind_of_not ha, finish_error]

theorem exec_pdbl_of_ok (ha : AcceptedPoint s.p[a.val]) (h : pdbl (pointValue s.p[a.val]) = .ok r) :
    exec (.pdbl d a) s = .next (wroteP s d (pointOf r)) := by
  refine congrArg Host.Outcome.next ((finish_requireLegal_of_wellFormed (wellFormed_pdbl d a) _ s).trans ?_)
  rw [pointOperand_bind_of_accepted ha, finish_bind_toP_of_ok h]

theorem exec_pdbl_of_not (ha : ¬AcceptedPoint s.p[a.val]) :
    exec (.pdbl d a) s = .next (failed s .operandRange) := by
  refine congrArg Host.Outcome.next ((finish_requireLegal_of_wellFormed (wellFormed_pdbl d a) _ s).trans ?_)
  rw [pointOperand_bind_of_not ha, finish_error]

theorem exec_pmul_of_ok (hk : s.f[k.val].toNat < Config.n) (hb : AcceptedPoint s.p[b.val])
    (h : pmul s.f[k.val].toNat (pointValue s.p[b.val]) = .ok r) :
    exec (.pmul d k b) s = .next (wroteP s d (pointOf r)) := by
  refine congrArg Host.Outcome.next ((finish_operand_of_lt (wellFormed_pmul d b k) hk _).trans ?_)
  rw [pointOperand_bind_of_accepted hb, finish_bind_toP_of_ok h]

/-- The scalar is checked before the point, with the same error (R152). -/
theorem exec_pmul_of_not (h : Config.n ≤ s.f[k.val].toNat ∨ ¬AcceptedPoint s.p[b.val]) :
    exec (.pmul d k b) s = .next (failed s .operandRange) := by
  refine congrArg Host.Outcome.next ?_
  rcases lt_or_ge s.f[k.val].toNat Config.n with hk | hk
  · refine (finish_operand_of_lt (wellFormed_pmul d b k) hk _).trans ?_
    rw [pointOperand_bind_of_not (h.resolve_left hk.not_ge), finish_error]
  · exact finish_operand_of_le (wellFormed_pmul d b k) hk _

end Commands

/-! ### PCHK -/

theorem exec_pchk (a : Fin 4) (s : State) : exec (.pchk a) s = .next (checked s (isOnCurve s.p[a.val])) := by
  rw [← readP_fin]
  exact congrArg Host.Outcome.next (finish_requireLegal_of_wellFormed (wellFormed_pchk a) _ s)

/-- R153, R141: the test of PCHK is the identity, or the range of the coordinates and the curve equation. -/
theorem isOnCurve_iff (pt : Point) : isOnCurve pt = true ↔
    pt.inf = true ∨ (pt.x.toNat < Config.p ∧ pt.y.toNat < Config.p ∧ CurveEquation pt.x.toNat pt.y.toNat) := by
  rw [isOnCurve, coordsInRange, Bool.or_eq_true, Bool.and_eq_true, Bool.and_eq_true, decide_eq_true_eq,
    decide_eq_true_eq, and_assoc]
  exact or_congr_right (and_congr_right fun hx => and_congr_right fun hy => onCurve_iff hx hy)

/-! ### The cases of the formulas (R143, R144) -/

theorem pdbl_of_y_eq_zero {x y : Nat} (h : y = 0) : pdbl (.affine x y) = .ok .identity := if_pos h

section Padd

variable {x1 y1 x2 y2 : Nat}

theorem padd_identity_left (q : CurvePoint) : padd .identity q = .ok q := rfl

theorem padd_identity_right (q : CurvePoint) : padd q .identity = .ok q := by cases q <;> rfl

theorem padd_of_opposite (hy1 : y1 < Config.p) (hy2 : y2 < Config.p) (hx : x1 = x2)
    (h : (y1 + y2) % Config.p = 0) : padd (.affine x1 y1) (.affine x2 y2) = .ok .identity :=
  if_pos ⟨hx, (fadd_eq_mod hy1 hy2).trans h⟩

/-- Points with the same `x` that are not opposite are doubled where they are equal, and have no chord where they are
not. -/
theorem padd_of_not_opposite (hy1 : y1 < Config.p) (hy2 : y2 < Config.p) (hx : x1 = x2)
    (h : (y1 + y2) % Config.p ≠ 0) :
    padd (.affine x1 y1) (.affine x2 y2) = if y1 = y2 then pdbl (.affine x1 y1) else .error .divisionByZero := by
  subst hx
  have hne : ¬(x1 = x1 ∧ fadd y1 y2 Config.p = 0) := fun h0 => h ((fadd_eq_mod hy1 hy2).symm.trans h0.2)
  have hself : fsub x1 x1 Config.p = 0 := by rw [fsub, if_pos le_rfl, Nat.sub_self]
  rw [padd, if_neg hne]
  by_cases hy : y1 = y2
  · rw [if_pos ⟨rfl, hy⟩, if_pos hy]
  · rw [if_neg fun h' => hy h'.2, if_neg hy, hself]
    rfl

end Padd

/-- A point that is not opposite to itself has `y` not 0. -/
theorem ne_zero_of_double_mod_ne_zero {y m : Nat} (h : (y + y) % m ≠ 0) : y ≠ 0 := by
  rintro rfl
  exact h (Nat.zero_mod m)

/-- Writing back the value of an affine register gives the register's contents (R13, R25). -/
theorem pointOf_pointValue {pt : Point} (h : pt.inf = false) : pointOf (pointValue pt) = pt := by
  obtain ⟨inf, x, y⟩ := pt
  obtain rfl : inf = false := h
  simp [pointValue, pointOf]

/-- An accepted affine point has both coordinates in range (R147). -/
theorem coords_lt_of_accepted {pt : Point} (h : AcceptedPoint pt) (hinf : pt.inf = false) :
    pt.x.toNat < Config.p ∧ pt.y.toNat < Config.p :=
  h.resolve_left (by simp [hinf])

/-! ### The obligations -/

/-- Settles O16: the checks of R150 leave the cases of R144. -/
theorem paddAddsThePoints : Obligations.PaddAddsThePoints := by
  intro d a b s
  refine ⟨fun ha hb => ?_, fun ha hb hQ => ?_, fun ha hb hP => ?_, fun ha hb hP hQ => ?_, exec_padd_of_not d⟩
  · refine exec_padd_of_ok d (.inl ha) (.inl hb) (r := .identity) ?_
    rw [pointValue_of_inf ha, pointValue_of_inf hb, padd_identity_left]
  · rw [exec_padd_of_ok d (.inl ha) hQ (r := pointValue s.p[b.val]), pointOf_pointValue hb]
    rw [pointValue_of_inf ha, padd_identity_left]
  · rw [exec_padd_of_ok d hP (.inl hb) (r := pointValue s.p[a.val]), pointOf_pointValue ha]
    rw [pointValue_of_inf hb, padd_identity_right]
  · obtain ⟨hx1, hy1⟩ := coords_lt_of_accepted hP ha
    obtain ⟨hx2, hy2⟩ := coords_lt_of_accepted hQ hb
    have hok {r} := exec_padd_of_ok (r := r) d hP hQ
    have herror {e} := exec_padd_of_error (e := e) d hP hQ
    rw [pointValue_of_affine ha, pointValue_of_affine hb] at hok herror
    refine ⟨fun hx h => ?_, fun hx h hy => ?_, fun hx h hy => ?_, fun hx => ?_⟩
    · exact hok (padd_of_opposite hy1 hy2 (congrArg _ hx) h)
    · have hpadd := padd_of_not_opposite hy1 hy2 (congrArg BitVec.toNat hx) h
      rw [if_pos (congrArg _ hy)] at hpadd
      rw [← hy] at h
      obtain ⟨x, y, hpdbl, hlx, hly, ht⟩ := pdbl_affine hx1 hy1 (ne_zero_of_double_mod_ne_zero h)
      exact ⟨x, y, hlx, hly, ht, hok (hpadd.trans hpdbl)⟩
    · have hpadd := padd_of_not_opposite hy1 hy2 (congrArg BitVec.toNat hx) h
      exact herror (hpadd.trans (if_neg fun hy' => hy (BitVec.eq_of_toNat_eq hy')))
    · obtain ⟨x, y, hpadd, hlx, hly, hc⟩ :=
        padd_chord hx1 hy1 hx2 hy2 fun hx' => hx (BitVec.eq_of_toNat_eq hx')
      exact ⟨x, y, hlx, hly, hc, hok hpadd⟩

/-- Settles O17: the one division of R143 is by `2y` with `y` not 0. -/
theorem pdblDoublesThePoint : Obligations.PdblDoublesThePoint := by
  intro d a s
  refine ⟨fun ha => ?_, fun ha hP h0 => ?_, fun ha hP h0 => ?_, exec_pdbl_of_not d⟩
  · exact exec_pdbl_of_ok d (.inl ha) (r := .identity) (by rw [pointValue_of_inf ha, pdbl])
  · refine exec_pdbl_of_ok d hP (r := .identity) ?_
    rw [pointValue_of_affine ha, pdbl_of_y_eq_zero (congrArg BitVec.toNat h0)]
  · obtain ⟨hx, hy⟩ := coords_lt_of_accepted hP ha
    obtain ⟨x, y, hpdbl, hlx, hly, ht⟩ := pdbl_affine hx hy fun h => h0 (BitVec.eq_of_toNat_eq h)
    rw [← pointValue_of_affine ha] at hpdbl
    exact ⟨x, y, hlx, hly, ht, exec_pdbl_of_ok d hP hpdbl⟩

/-- Settles O18: an accepted point lies on a curve `y^2 = x^3 - 3x + c`, on which `pmul` never divides by zero. -/
theorem pmulWritesTheMultiple : Obligations.PmulWritesTheMultiple := by
  refine fun d b a s => ⟨fun hk hP => ?_, exec_pmul_of_not d⟩
  obtain ⟨c, hc⟩ := accepted_onCurveWith hP
  obtain ⟨r, hr, -⟩ := pmul_onCurve s.f[a.val].toNat hc
  exact ⟨r, hr, exec_pmul_of_ok d hk hP hr⟩

/-- Settles O20. -/
theorem pchkTestsTheCurveEquation : Obligations.PchkTestsTheCurveEquation :=
  fun a s => ⟨_, exec_pchk a s, isOnCurve_iff _⟩

/-- Settles O21. -/
theorem pldgWritesTheBasePoint : Obligations.PldgWritesTheBasePoint := fun d s =>
  congrArg Host.Outcome.next
    ((finish_requireLegal_of_wellFormed (wellFormed_pldg d) _ s).trans (finish_toP d basePoint s))

end Sys2Proof.Proofs
end

section
/-! SUPPORT. Scalar multiplication and the group law (`41_point_arithmetic.md` R145, R146): the loop bit by bit, and the
formulas against the library's group of the curve. -/

namespace Sys2Proof.Proofs

open Sys2Proof.Machine Sys2Proof.Safety Sys2Proof.Laws
open WeierstrassCurve.Affine (Point.zero_def Point.add_some Point.add_of_Y_eq)

/-! ### `pmul` by the bits of the scalar (R145) -/

theorem pmulStep_false (pt acc : CurvePoint) : pmulStep false pt acc = pdbl acc := bind_pure (pdbl acc)

theorem pmulStep_true (pt acc : CurvePoint) : pmulStep true pt acc = (pdbl acc).bind fun twice => padd twice pt := rfl

theorem pmulBits_zero (pt : CurvePoint) : ∀ i, pmulBits 0 pt i .identity = .ok .identity
  | 0 => rfl
  | i + 1 => (pmulBits_succ_of_lt (Nat.two_pow_pos i) pt).trans (pmulBits_zero pt i)

theorem pmulStep_identity (bit : Bool) : pmulStep bit .identity .identity = .ok .identity := by cases bit <;> rfl

theorem pmulBits_identity (k : Nat) : ∀ i, pmulBits k .identity i .identity = .ok .identity
  | 0 => rfl
  | i + 1 => by rw [pmulBits_succ, pmulStep_identity]; exact pmulBits_identity k i

theorem pmul_zero (pt : CurvePoint) : pmul 0 pt = .ok .identity := pmulBits_zero pt 256

/-- Settles O19: the loop of R145 read from the least significant bit. -/
theorem pmulIsDoubleAndAdd : Obligations.PmulIsDoubleAndAdd := by
  refine fun k pt hk => ⟨pmul_zero pt, pmulBits_identity k 256, ?_, ?_⟩
  · rw [← Nat.bit_false_apply, pmul_bit false hk, funext (pmulStep_false pt)]
  · rw [← Nat.bit_true_apply, pmul_bit true hk]
    exact (bind_assoc (pmul k pt) pdbl fun acc => padd acc pt).symm

/-! ### The library's curve -/

theorem curve_negY (x y : ZMod Config.p) : curve.negY x y = -y := by
  simp [WeierstrassCurve.Affine.negY, curve]

theorem curve_addX (x1 x2 l : ZMod Config.p) : curve.addX x1 x2 l = l ^ 2 - x1 - x2 := by
  simp [WeierstrassCurve.Affine.addX, curve]

theorem curve_addY (x1 x2 y1 l : ZMod Config.p) :
    curve.addY x1 x2 y1 l = l * (x1 - curve.addX x1 x2 l) - y1 := by
  rw [WeierstrassCurve.Affine.addY, curve_negY, WeierstrassCurve.Affine.negAddY]
  ring

theorem curve_equation_natCast (x y : Nat) : curve.Equation x y ↔ CurveEquation x y := by
  rw [WeierstrassCurve.Affine.equation_iff, CurveEquation]
  simp [curve, sub_eq_add_neg]

/-- The discriminant is `1728 - 432 b^2`, which `p` does not divide: the curve has no singular point. -/
theorem curve_Δ_ne_zero : curve.Δ ≠ 0 := by
  have hΔ : curve.Δ = ((1728 + 432 * (Config.p - Config.b ^ 2 % Config.p) : Nat) : ZMod Config.p) := by
    rw [Nat.cast_add, Nat.cast_mul, Nat.cast_sub (Nat.mod_lt _ p_pos).le, ZMod.natCast_self, ZMod.natCast_mod]
    simp only [WeierstrassCurve.Δ, WeierstrassCurve.b₂, WeierstrassCurve.b₄, WeierstrassCurve.b₆,
      WeierstrassCurve.b₈, curve]
    push_cast
    ring
  rw [hΔ, ne_eq, ZMod.natCast_eq_zero_iff]
  decide

section GroupLaw

variable [Fact (Nat.Prime Config.p)]

theorem curve_slope_chord {x1 y1 x2 y2 l : ZMod Config.p} (hx : x1 ≠ x2) (h : l * (x2 - x1) = y2 - y1) :
    curve.slope x1 x2 y1 y2 = l := by
  rw [WeierstrassCurve.Affine.slope_of_X_ne hx, div_eq_iff (sub_ne_zero.2 hx)]
  linear_combination h

theorem curve_slope_tangent {x y l : ZMod Config.p} (hy : y ≠ -y) (h : l * (2 * y) = 3 * x ^ 2 - 3) :
    curve.slope x x y y = l := by
  rw [← curve_negY x] at hy
  rw [WeierstrassCurve.Affine.slope_of_Y_ne rfl hy, div_eq_iff (sub_ne_zero.2 hy), curve_negY]
  simp only [curve]
  linear_combination -h

/-- Reduced coordinates congruent to a point's are the point's. -/
theorem affine_eq_curvePointOf {x y : ZMod Config.p} (h : curve.Nonsingular x y) {x' y' : Nat} (hx' : x' < Config.p)
    (hy' : y' < Config.p) (hx : (x' : ZMod Config.p) = x) (hy : (y' : ZMod Config.p) = y) :
    .affine x' y' = curvePointOf (.some x y h) := by
  subst hx hy
  rw [curvePointOf, ZMod.val_cast_of_lt hx', ZMod.val_cast_of_lt hy']

/-- The point that the line of R143 and R144 gives is the library's sum where the slope is the library's. -/
theorem line_eq_curvePointOf_add {x1 y1 x2 y2 l : ZMod Config.p} {x' y' : Nat} {h1 : curve.Nonsingular x1 y1}
    {h2 : curve.Nonsingular x2 y2} (hne : ¬(x1 = x2 ∧ y1 = curve.negY x2 y2)) (hl : curve.slope x1 x2 y1 y2 = l)
    (hx' : x' < Config.p) (hy' : y' < Config.p) (hx : (x' : ZMod Config.p) = l ^ 2 - x1 - x2)
    (hy : (y' : ZMod Config.p) = l * (x1 - x') - y1) :
    .affine x' y' = curvePointOf (.some x1 y1 h1 + .some x2 y2 h2) := by
  rw [Point.add_some hne]
  refine affine_eq_curvePointOf _ hx' hy' ?_ ?_
  · rw [hl, curve_addX, hx]
  · rw [hl, curve_addY, curve_addX, hy, hx]

/-- R143 on the curve: the tangent at a point meets the curve in the negated double. -/
theorem pdbl_curvePointOf (A : curve.Point) : pdbl (curvePointOf A) = .ok (curvePointOf (A + A)) := by
  cases A with
  | zero => rw [← Point.zero_def, add_zero]; rfl
  | some x y h =>
    rw [curvePointOf]
    by_cases h0 : y = 0
    · rw [pdbl_of_y_eq_zero ((ZMod.val_eq_zero y).2 h0), Point.add_of_Y_eq rfl (by rw [curve_negY, h0, neg_zero])]
      rfl
    · obtain ⟨x', y', he, hx', hy', l, hl, hx, hy⟩ :=
        pdbl_affine (ZMod.val_lt x) (ZMod.val_lt y) ((ZMod.val_eq_zero y).not.2 h0)
      simp only [ZMod.natCast_zmod_val] at hl hx hy
      have hyne : y ≠ -y := fun hyy => h0 <| (mul_eq_zero.1 (by linear_combination hyy : 2 * y = 0)).resolve_left
        two_ne_zero'
      rw [he, line_eq_curvePointOf_add (fun hxy => hyne (hxy.2.trans (curve_negY x y)))
        (curve_slope_tangent hyne hl) hx' hy' (hx.trans (by ring)) hy]

/-- R144 on the curve: two points with the same `x` are opposite or equal; any others have a chord. -/
theorem padd_curvePointOf (A B : curve.Point) :
    padd (curvePointOf A) (curvePointOf B) = .ok (curvePointOf (A + B)) := by
  cases A with
  | zero => rw [← Point.zero_def, zero_add]; rfl
  | some x1 y1 h1 =>
    cases B with
    | zero => rw [← Point.zero_def, add_zero]; rfl
    | some x2 y2 h2 =>
      by_cases hx : x1 = x2
      · subst hx
        by_cases hy : y1 = curve.negY x1 y2
        · have hsum : (y1.val + y2.val) % Config.p = 0 := by
            rw [← ZMod.val_add, hy, curve_negY, neg_add_cancel, ZMod.val_zero]
          rw [Point.add_of_Y_eq rfl hy, curvePointOf, curvePointOf,
            padd_of_opposite (ZMod.val_lt y1) (ZMod.val_lt y2) rfl hsum]
          rfl
        · obtain rfl : y1 = y2 := WeierstrassCurve.Affine.Y_eq_of_Y_ne h1.left h2.left rfl hy
          have hsum : (y1.val + y1.val) % Config.p ≠ 0 := by
            rw [← ZMod.val_add, ne_eq, ZMod.val_eq_zero, add_eq_zero_iff_eq_neg, ← curve_negY x1]
            exact hy
          rw [← pdbl_curvePointOf, curvePointOf, padd_of_not_opposite (ZMod.val_lt y1) (ZMod.val_lt y1) rfl hsum,
            if_pos rfl]
      · obtain ⟨x', y', he, hx', hy', l, hl, hxe, hye⟩ := padd_chord (ZMod.val_lt x1) (ZMod.val_lt y1)
          (ZMod.val_lt x2) (ZMod.val_lt y2) ((ZMod.val_injective Config.p).ne hx)
        simp only [ZMod.natCast_zmod_val] at hl hxe hye
        rw [curvePointOf, curvePointOf, he, line_eq_curvePointOf_add (fun hxy => hx hxy.1)
          (curve_slope_chord hx hl) hx' hy' hxe hye]

/-- R141: the reduced points of the curve equation are the points of the library's curve. -/
theorem exists_curvePointOf_eq_affine_iff {x y : Nat} (hx : x < Config.p) (hy : y < Config.p) :
    (∃ A : curve.Point, curvePointOf A = .affine x y) ↔ CurveEquation x y := by
  rw [← curve_equation_natCast]
  constructor
  · rintro ⟨_ | ⟨x', y', h⟩, hA⟩
    · cases hA
    · obtain ⟨rfl, rfl⟩ := CurvePoint.affine.inj hA
      simpa only [ZMod.natCast_zmod_val] using h.left
  · intro h
    have hns := (curve.equation_iff_nonsingular_of_Δ_ne_zero curve_Δ_ne_zero).1 h
    exact ⟨.some _ _ hns, (affine_eq_curvePointOf hns hx hy rfl rfl).symm⟩

/-- One step of the loop of R145 on the curve. -/
theorem pmulStep_curvePointOf (bit : Bool) (k : Nat) (A : curve.Point) :
    pmulStep bit (curvePointOf A) (curvePointOf (k • A)) = .ok (curvePointOf (Nat.bit bit k • A)) := by
  cases bit with
  | false => rw [pmulStep_false, pdbl_curvePointOf, Nat.bit_false_apply, two_mul, add_nsmul]
  | true =>
    rw [pmulStep_true, pdbl_curvePointOf, Except.bind, padd_curvePointOf, Nat.bit_true_apply, succ_nsmul, two_mul,
      add_nsmul]

/-- R146 (b), by induction on the bits of the scalar. -/
theorem pmul_curvePointOf (A : curve.Point) {k : Nat} (hk : k < 2 ^ 256) :
    pmul k (curvePointOf A) = .ok (curvePointOf (k • A)) := by
  induction k using Nat.binaryRec with
  | zero => rw [pmul_zero, zero_nsmul]; rfl
  | bit bit k ih =>
    have hk' : k < 2 ^ 255 := by
      rw [Nat.bit_val] at hk
      omega
    rw [pmul_bit bit hk', ih (by omega), Except.bind, pmulStep_curvePointOf]

end GroupLaw

/-! ### The obligations -/

/-- Settles O22. -/
theorem paddIsTheGroupLaw : Obligations.PaddIsTheGroupLaw :=
  ⟨padd_curvePointOf, pdbl_curvePointOf, fun _ _ => exists_curvePointOf_eq_affine_iff⟩

/-- Settles O23. -/
theorem pmulIsRepeatedAddition : Obligations.PmulIsRepeatedAddition := fun _ A => pmul_curvePointOf A

end Sys2Proof.Proofs
end

section
/-! SUPPORT. The decode checks (`42_decode_checks.md` R180 to R185): what `sig_ok` and `key_ok` decide, and how a test
decides the completion of the command that makes it. -/

namespace Sys2Proof.Proofs

open Sys2Proof.Machine Sys2Proof.Safety Sys2Proof.Laws

/-! ### What the tests decide -/

/-- R180. -/
theorem sigOk_iff {r s : Nat} : sigOk r s = true ↔ ValidSignature r s := by
  simp only [sigOk, ValidSignature, Bool.and_eq_true, decide_eq_true_eq, and_assoc]

/-- R184: the curve equation is asked only of coordinates below `p`, where `onCurve` decides it. -/
theorem keyOk_iff {pt : Point} : keyOk pt = true ↔ ValidKey pt := by
  rw [keyOk, coordsInRange, ValidKey, Bool.and_eq_true, Bool.and_eq_true, Bool.and_eq_true, Bool.not_eq_true',
    decide_eq_true_eq, decide_eq_true_eq, and_assoc, and_assoc]
  exact and_congr_right fun _ => and_congr_right fun hx => and_congr_right fun hy => onCurve_iff hx hy

/-! ### What a test does to a command -/

section Tests

variable {c : Bool} {e : CmdError}

theorem require_bind_of_true {β : Type} (h : c = true) (rest : Unit → Except CmdError β) :
    require c e >>= rest = rest () := by
  rw [h, require_true]
  rfl

theorem require_bind_of_not {β : Type} (h : ¬c = true) (rest : Unit → Except CmdError β) :
    require c e >>= rest = .error e := by
  rw [Bool.eq_false_iff.2 h, require_false]
  rfl

/-- What SIGCHK and KEYCHK share: `e` unless the test `c` passes, then `VALID <- 1` (R182, R185). -/
def testResult (i : Instr) (c : Bool) (e : CmdError) : Except CmdError CmdResult := do
  requireLegal i
  require c e
  return .flag true

/-- A legal command that makes one test, which decides `P`, passes or raises its error as `P` holds or not. -/
theorem exec_of_testResult {i : Instr} {s : State} {P : Prop} (hwf : WellFormed i)
    (hexec : exec i s = .next (finish (testResult i c e) s)) (hc : c = true ↔ P) :
    (P → exec i s = .next (checked s true)) ∧ (¬P → exec i s = .next (failed s e)) := by
  rw [hexec, testResult, finish_requireLegal_of_wellFormed hwf]
  refine ⟨fun h => ?_, fun h => ?_⟩
  · rw [require_bind_of_true (hc.2 h)]
    exact congrArg Host.Outcome.next (finish_flag true s)
  · rw [require_bind_of_not (mt hc.1 h), finish_error]

end Tests

theorem wellFormed_sigchk (a b : Fin 8) : WellFormed (.sigchk a b) := isFIndex_unary a b

theorem wellFormed_keychk (a : Fin 4) : WellFormed (.keychk a) := isPIndex_fin a

/-! ### The obligations -/

/-- Settles O25. -/
theorem sigchkChecksTheRange : Obligations.SigchkChecksTheRange := by
  intro a b s
  rw [← fValue_fin, ← fValue_fin]
  exact exec_of_testResult (wellFormed_sigchk a b) rfl sigOk_iff

/-- Settles O26. -/
theorem keychkChecksTheKey : Obligations.KeychkChecksTheKey := by
  intro a s
  rw [← readP_fin]
  exact exec_of_testResult (wellFormed_keychk a) rfl keyOk_iff

end Sys2Proof.Proofs
end

section
/-! SUPPORT. The verifier (`43_verifier.md` R201 to R206): VERIFY after its two checks, the verification equation in the
group of the curve, and why the point it computes from a signer's signature is the signer's `k * G`. -/

namespace Sys2Proof.Proofs

open Sys2Proof.Machine Sys2Proof.Safety Sys2Proof.Laws

/-! ### The field steps of the verification equation (R201) -/

/-- R203: the inverse of step 2 exists where `sig_ok` has passed. -/
theorem inverseOrInternal_of_validSignature {r s : Nat} (h : ValidSignature r s) :
    ∃ w, inverseOrInternal s = .ok w ∧ w < Config.n ∧ s * w % Config.n = 1 := by
  obtain ⟨-, h0, hs⟩ := h
  obtain ⟨w, hw, -, hlt, hinv⟩ := finv_of_pos n_prime n_lt h0 hs
  exact ⟨w, by rw [inverseOrInternal, hw], hlt, hinv⟩

/-- R117: `n` is above `2^255`, so FRED's one subtraction reduces a 256-bit value modulo `n`. -/
theorem fred_n_eq_mod {v : Nat} (hv : v < 2 ^ 256) : fred v Config.n = v % Config.n := fred_eq_mod (hv.trans lt_two_n)

/-! ### Keys, and the base point, as points of the curve -/

section Group

variable [Fact (Nat.Prime Config.p)]

theorem exists_curvePointOf_of_validKey {pt : Point} (h : ValidKey pt) :
    ∃ Q : curve.Point, curvePointOf Q = .affine pt.x.toNat pt.y.toNat := by
  obtain ⟨-, hx, hy, heq⟩ := h
  exact (exists_curvePointOf_eq_affine_iff hx hy).2 heq

theorem validKey_of_curvePointOf {pt : Point} {Q : curve.Point} (hinf : pt.inf = false)
    (hQ : curvePointOf Q = .affine pt.x.toNat pt.y.toNat) : ValidKey pt := by
  obtain ⟨hx, hy⟩ : pt.x.toNat < Config.p ∧ pt.y.toNat < Config.p := by
    cases Q with
    | zero => cases hQ
    | some x y h =>
      obtain ⟨hx, hy⟩ := CurvePoint.affine.inj hQ
      exact ⟨hx ▸ ZMod.val_lt x, hy ▸ ZMod.val_lt y⟩
  exact ⟨hinf, hx, hy, (exists_curvePointOf_eq_affine_iff hx hy).1 ⟨Q, hQ⟩⟩

/-- R8, R146 (c): the base point is a point of the curve, and `n` takes it to the identity. -/
theorem exists_generator : ∃ G : curve.Point, curvePointOf G = basePoint ∧ Config.n • G = 0 := by
  obtain ⟨G, hG⟩ : ∃ G : curve.Point, curvePointOf G = basePoint :=
    (exists_curvePointOf_eq_affine_iff (by decide) (by decide)).2 ((onCurve_iff (by decide) (by decide)).1 (by decide))
  refine ⟨G, hG, ?_⟩
  have hid : curvePointOf (Config.n • G) = .identity := Except.ok.inj <| by
    rw [← pmul_curvePointOf G n_lt, hG, orderTimesBasePointIsTheIdentity]
  cases hn : Config.n • G with
  | zero => rfl
  | some x y h => rw [hn] at hid; cases hid

/-! ### The equation in the group -/

theorem pmul_mod_curvePointOf (u : Nat) (A : curve.Point) :
    pmul (u % Config.n) (curvePointOf A) = .ok (curvePointOf ((u % Config.n) • A)) :=
  pmul_curvePointOf A ((Nat.mod_lt _ n_prime.pos).trans n_lt)

/-- Steps 5 and 6 decide that the point of the curve is affine with `x mod n = r`. -/
theorem comparesTo_curvePointOf_iff (r : Nat) (C : curve.Point) :
    comparesTo r (curvePointOf C) = true ↔ ∃ x y, curvePointOf C = .affine x y ∧ x % Config.n = r := by
  cases C with
  | zero => simp [curvePointOf, comparesTo]
  | some x y h =>
    rw [curvePointOf, comparesTo, beq_iff_eq, fred_n_eq_mod ((ZMod.val_lt x).trans p_lt)]
    exact ⟨fun hr => ⟨_, _, rfl, hr⟩, by rintro ⟨_, _, ⟨⟩, hr⟩; exact hr⟩

/-- R201 on the curve: with `w` the inverse of `s`, step 4 computes `u1 G + u2 Q` and steps 5 and 6 decide. -/
theorem ecdsaCheck_curvePointOf {e r s w : Nat} {G : curve.Point} (hG : curvePointOf G = basePoint) (Q : curve.Point)
    (he : e < 2 ^ 256) (hw : inverseOrInternal s = .ok w) :
    ecdsaCheck e r s (curvePointOf Q) = .ok (comparesTo r (curvePointOf
      ((e % Config.n * w % Config.n) • G + (r * w % Config.n) • Q))) := by
  simp only [ecdsaCheck, bind, Except.bind, hw, fred_n_eq_mod he, fmul, ← hG, pmul_mod_curvePointOf,
    padd_curvePointOf]
  rfl

/-- R206: where `n G = 0`, the signer's equation makes the point of step 4 the signer's `k G`:
`u1 + u2 dk = (z + r dk) w = k s w = k` modulo `n`. -/
theorem signer_point_eq {e r s w dk k : Nat} {G : curve.Point} (hn : Config.n • G = 0)
    (hinv : s * w % Config.n = 1) (hsign : k * s % Config.n = (e + r * dk) % Config.n) :
    (e % Config.n * w % Config.n) • G + (r * w % Config.n) • dk • G = k • G := by
  have hscalar : e % Config.n * w % Config.n + r * w % Config.n * dk ≡ k [MOD Config.n] :=
    calc e % Config.n * w % Config.n + r * w % Config.n * dk
        ≡ e * w + r * w * dk [MOD Config.n] :=
          ((Nat.mod_modEq _ _).trans ((Nat.mod_modEq e _).mul_right w)).add ((Nat.mod_modEq _ _).mul_right dk)
      _ = (e + r * dk) * w := by ring
      _ ≡ k * s * w [MOD Config.n] := Nat.ModEq.mul_right w hsign.symm
      _ = k * (s * w) := mul_assoc k s w
      _ ≡ k * 1 [MOD Config.n] := Nat.ModEq.mul_left k (hinv.trans (Nat.mod_eq_of_lt n_prime.one_lt).symm)
      _ = k := mul_one k
  rw [← mul_nsmul', ← add_nsmul, nsmul_eq_mod_nsmul _ hn, hscalar, ← nsmul_eq_mod_nsmul _ hn]

end Group

/-! ### VERIFY's checks (R202) -/

section Verify

variable {a : Fin 4} {b c e : Fin 8} {s : State}

theorem wellFormed_verify (a : Fin 4) (b c e : Fin 8) : WellFormed (.verify a b c e) := by
  simp [WellFormed, Instr.wellFormed]

/-- A legal VERIFY is its two checks and the equation, on the registers its operands name. -/
theorem exec_verify (a : Fin 4) (b c e : Fin 8) (s : State) :
    exec (.verify a b c e) s = .next (finish (do
      require (sigOk s.f[c.val].toNat s.f[e.val].toNat) .malformedSignature
      require (keyOk s.p[a.val]) .invalidPublicKey
      let ok ← ecdsaCheck s.f[b.val].toNat s.f[c.val].toNat s.f[e.val].toNat (pointValue s.p[a.val])
      return .flag ok) s) := by
  simp only [← fValue_fin, ← readP_fin]
  exact congrArg Host.Outcome.next (finish_requireLegal_of_wellFormed (wellFormed_verify a b c e) _ s)

theorem exec_verify_of_not_signature (h : ¬ValidSignature s.f[c.val].toNat s.f[e.val].toNat) :
    exec (.verify a b c e) s = .next (failed s .malformedSignature) := by
  rw [exec_verify, require_bind_of_not (mt sigOk_iff.1 h), finish_error]

theorem exec_verify_of_not_key (hsig : ValidSignature s.f[c.val].toNat s.f[e.val].toNat)
    (h : ¬ValidKey s.p[a.val]) : exec (.verify a b c e) s = .next (failed s .invalidPublicKey) := by
  rw [exec_verify, require_bind_of_true (sigOk_iff.2 hsig), require_bind_of_not (mt keyOk_iff.1 h), finish_error]

theorem exec_verify_of_check {ok : Bool} (hsig : ValidSignature s.f[c.val].toNat s.f[e.val].toNat)
    (hkey : ValidKey s.p[a.val])
    (hok : ecdsaCheck s.f[b.val].toNat s.f[c.val].toNat s.f[e.val].toNat
      (.affine s.p[a.val].x.toNat s.p[a.val].y.toNat) = .ok ok) :
    exec (.verify a b c e) s = .next (checked s ok) := by
  rw [exec_verify, require_bind_of_true (sigOk_iff.2 hsig), require_bind_of_true (keyOk_iff.2 hkey),
    pointValue_of_affine hkey.1, hok]
  exact congrArg Host.Outcome.next (finish_flag ok s)

end Verify

/-! ### The obligations -/

/-- Settles O27: the inverse exists since `n` is prime, and the point arithmetic cannot fail since `G` and a valid key
are points of the curve. -/
theorem verifyDecidesTheEquation : Obligations.VerifyDecidesTheEquation := by
  refine fun a b c e s => ⟨exec_verify_of_not_signature, exec_verify_of_not_key, fun hsig hkey => ?_⟩
  have : Fact (Nat.Prime Config.p) := ⟨p_prime⟩
  obtain ⟨w, hw, hlt, hinv⟩ := inverseOrInternal_of_validSignature hsig
  obtain ⟨G, hG, -⟩ := exists_generator
  obtain ⟨Q, hQ⟩ := exists_curvePointOf_of_validKey hkey
  have hcheck := ecdsaCheck_curvePointOf (r := s.f[c.val].toNat) hG Q s.f[b.val].isLt hw
  rw [hQ] at hcheck
  refine ⟨w, _, _, _, _, hlt, hinv, ?_, ?_, padd_curvePointOf _ _, comparesTo_curvePointOf_iff _ _,
    exec_verify_of_check hsig hkey hcheck⟩
  · rw [← basePoint, ← hG, pmul_mod_curvePointOf]
  · rw [← hQ, pmul_mod_curvePointOf]

/-- Settles O28: the signature passes both checks, and the equation's point is the signer's `k * G`. -/
theorem verifyAcceptsASignersSignature : Obligations.VerifyAcceptsASignersSignature := by
  intro a b c e s dk k rx ry _ hdk _ hk hinf hkey hnonce hr hr0 hsign hs0 hs
  have : Fact (Nat.Prime Config.p) := ⟨p_prime⟩
  obtain ⟨G, hG, hn⟩ := exists_generator
  rw [← hG, pmul_curvePointOf G (hdk.trans n_lt)] at hkey
  rw [← hG, pmul_curvePointOf G (hk.trans n_lt)] at hnonce
  have hQ := Except.ok.inj hkey
  have hR := Except.ok.inj hnonce
  have hsig : ValidSignature s.f[c.val].toNat s.f[e.val].toNat :=
    ⟨⟨Nat.pos_of_ne_zero hr0, hr ▸ Nat.mod_lt _ n_prime.pos⟩, Nat.pos_of_ne_zero hs0, hs⟩
  obtain ⟨w, hw, -, hinv⟩ := inverseOrInternal_of_validSignature hsig
  have hcheck := ecdsaCheck_curvePointOf (r := s.f[c.val].toNat) hG (dk • G) s.f[b.val].isLt hw
  rw [signer_point_eq hn hinv hsign, (comparesTo_curvePointOf_iff _ _).2 ⟨rx, ry, hR, hr.symm⟩, hQ] at hcheck
  exact exec_verify_of_check hsig (validKey_of_curvePointOf hinf hQ) hcheck

end Sys2Proof.Proofs
end

section
/-! SUPPORT. The errors of commands (`60_exceptions.md` R220 to R233): which errors each check and each computation can
raise, from them those of each command, and that a command's result depends on the register files alone. -/

namespace Sys2Proof.Proofs

open Sys2Proof.Machine Sys2Proof.Safety Sys2Proof.Laws

/-! ### A completion by its result -/

section Finish

variable {r : Except CmdError CmdResult} {s s' : State} {e : CmdError}

/-- ERR is set by an error and by nothing else (R35, R232). -/
theorem finish_err_eq_some_iff : (finish r s).status.err = some e ↔ r = .error e := by
  rcases r with e' | ⟨d, v⟩ | ⟨d, pt⟩ | v <;> simp [finish]

/-- R100: a completion is a function of the result, the register files and, for what it keeps, the rest of the state. -/
theorem finish_of_registers (hf : s.f = s'.f) (hp : s.p = s'.p) (r : Except CmdError CmdResult) :
    (finish r s).f = (finish r s').f ∧ (finish r s).p = (finish r s').p ∧
      (finish r s).status.valid = (finish r s').status.valid ∧
      (finish r s).status.err = (finish r s').status.err := by
  rcases r with e | ⟨d, v⟩ | ⟨d, pt⟩ | v <;> simp [finish, hf, hp]

end Finish

/-! ### The result is a function of the register files -/

section Registers

variable {s s' : State}

theorem readF_of_f (hf : s.f = s'.f) (i : Nat) : readF s i = readF s' i := by rw [readF, hf, readF]

theorem readP_of_p (hp : s.p = s'.p) (i : Nat) : readP s i = readP s' i := by rw [readP, hp, readP]

theorem fValue_of_f (hf : s.f = s'.f) (i : Nat) : fValue s i = fValue s' i := by rw [fValue, readF_of_f hf, fValue]

theorem reducedOperand_of_f (hf : s.f = s'.f) (m i : Nat) : reducedOperand s m i = reducedOperand s' m i := by
  rw [reducedOperand, fValue_of_f hf, reducedOperand]

theorem pointOperand_of_p (hp : s.p = s'.p) (i : Nat) : pointOperand s i = pointOperand s' i := by
  rw [pointOperand, readP_of_p hp, pointOperand]

/-- R233: the operands are all a command reads, so equal register files give equal results. -/
theorem exec_result_of_registers (hf : s.f = s'.f) (hp : s.p = s'.p) (i : Instr) :
    ∃ r, exec i s = .next (finish r s) ∧ exec i s' = .next (finish r s') := by
  cases i <;> refine ⟨_, rfl, ?_⟩
  case pldg => rfl
  all_goals
    simp only [fValue_of_f hf, readP_of_p hp, reducedOperand_of_f hf, pointOperand_of_p hp]
    rfl

end Registers

/-! ### The errors of a computation -/

/-- Every error the computation can raise is among `es`. -/
def RaisesOnly {α : Type} (es : List CmdError) (x : Except CmdError α) : Prop := ∀ e, x = .error e → e ∈ es

section Raises

variable {α β : Type} {es : List CmdError} {e : CmdError} {i : Instr} {s : State}

theorem raisesOnly_of_ok {x : Except CmdError α} {a : α} (h : x = .ok a) : RaisesOnly es x := by
  rintro e rfl
  cases h

theorem raisesOnly_pure (a : α) : RaisesOnly es (pure a) := raisesOnly_of_ok rfl

/-- A sequence raises what its first part raises, or what its second part raises on a value of the first. -/
theorem raisesOnly_bind {x : Except CmdError α} {f : α → Except CmdError β} (hx : RaisesOnly es x)
    (hf : ∀ a, x = .ok a → RaisesOnly es (f a)) : RaisesOnly es (x >>= f) := by
  intro e he
  cases x with
  | error e' => exact hx e (congrArg Except.error (Except.error.inj he))
  | ok a => exact hf a rfl e he

theorem raisesOnly_require (h : e ∈ es) (c : Bool) : RaisesOnly es (require c e) := by
  cases c
  · rintro _ ⟨⟩
    exact h
  · exact raisesOnly_of_ok rfl

theorem eq_true_of_require_eq_ok {c : Bool} {u : Unit} (h : require c e = .ok u) : c = true := by
  cases c
  · cases h
  · rfl

/-- R95: the check of the register numbers passes on a well-formed command. -/
theorem raisesOnly_legal_bind (h : WellFormed i) {rest : Unit → Except CmdError α}
    (hrest : RaisesOnly es (rest ())) : RaisesOnly es (requireLegal i >>= rest) := by
  rw [requireLegal_of_wellFormed h]
  exact hrest

/-! ### The checks of the operands (R111, R147) -/

theorem raisesOnly_reducedOperand (h : .operandRange ∈ es) (s : State) (m a : Nat) :
    RaisesOnly es (reducedOperand s m a) :=
  raisesOnly_bind (raisesOnly_require h _) fun _ _ => raisesOnly_pure _

theorem raisesOnly_pointOperand (h : .operandRange ∈ es) (s : State) (a : Nat) :
    RaisesOnly es (pointOperand s a) :=
  raisesOnly_bind (raisesOnly_require h _) fun _ _ => raisesOnly_pure _

/-- A point operand that passes its check lies on a curve `y^2 = x^3 - 3x + c` (R147). -/
theorem exists_onCurveWith_of_pointOperand {a : Nat} {pt : CurvePoint} (h : pointOperand s a = .ok pt) :
    ∃ c, OnCurveWith c pt := by
  by_cases ha : AcceptedPoint (readP s a)
  · rw [pointOperand_of_accepted ha] at h
    exact Except.ok.inj h ▸ accepted_onCurveWith ha
  · rw [pointOperand_of_not ha] at h
    cases h

/-! ### The field and point formulas (R116, R143 to R145) -/

theorem raisesOnly_finv (h : .divisionByZero ∈ es) (a m : Nat) : RaisesOnly es (finv a m) := by
  rw [finv]
  split
  · rintro _ ⟨⟩
    exact h
  · exact raisesOnly_of_ok rfl

theorem raisesOnly_pdbl (h : .divisionByZero ∈ es) (q : CurvePoint) : RaisesOnly es (pdbl q) := by
  cases q with
  | identity => exact raisesOnly_of_ok rfl
  | affine x y =>
    rw [pdbl]
    split
    · exact raisesOnly_of_ok rfl
    · exact raisesOnly_bind (raisesOnly_finv h _ _) fun _ _ => raisesOnly_pure _

theorem raisesOnly_padd (h : .divisionByZero ∈ es) (q r : CurvePoint) : RaisesOnly es (padd q r) := by
  cases q with
  | identity => exact raisesOnly_of_ok (padd_identity_left r)
  | affine x1 y1 =>
    cases r with
    | identity => exact raisesOnly_of_ok (padd_identity_right _)
    | affine x2 y2 =>
      rw [padd]
      split_ifs
      · exact raisesOnly_of_ok rfl
      · exact raisesOnly_pdbl h _
      · exact raisesOnly_bind (raisesOnly_finv h _ _) fun _ _ => raisesOnly_pure _

end Raises

/-! ### The verification equation never raises after its checks (R203) -/

theorem onCurveWith_basePoint : OnCurveWith Config.b basePoint :=
  ⟨by decide, by decide, (onCurve_iff (by decide) (by decide)).1 (by decide)⟩

theorem onCurveWith_of_validKey {pt : Point} : ValidKey pt → OnCurveWith Config.b (pointValue pt)
  | ⟨hinf, hx, hy, heq⟩ => by
    rw [pointValue_of_affine hinf]
    exact ⟨hx, hy, heq⟩

/-- The base point and a valid key lie on one curve, so the point arithmetic of R201 never divides by zero. -/
theorem exists_ecdsaCheck_eq_ok {r s : Nat} {q : CurvePoint} (e : Nat) (hsig : ValidSignature r s)
    (hq : OnCurveWith Config.b q) : ∃ ok, ecdsaCheck e r s q = .ok ok := by
  obtain ⟨w, hw, -⟩ := inverseOrInternal_of_validSignature hsig
  obtain ⟨p1, hp1, hc1⟩ := pmul_onCurve (fmul (fred e Config.n) w Config.n) onCurveWith_basePoint
  obtain ⟨p2, hp2, hc2⟩ := pmul_onCurve (fmul r w Config.n) hq
  obtain ⟨rt, hrt, -⟩ := padd_onCurve hc1 hc2
  exact ⟨comparesTo r rt, by simp only [ecdsaCheck, hw, hp1, hp2, hrt, bind, Except.bind]; rfl⟩

/-! ### The errors of each command -/

/-- R221: the result of a well-formed command has only errors its row marks `x`. -/
theorem exec_raisesOnly {i : Instr} (h : WellFormed i) (s : State) :
    ∃ r, exec i s = .next (finish r s) ∧ RaisesOnly (possibleErrors i) r := by
  cases i <;> refine ⟨_, rfl, raisesOnly_legal_bind h ?_⟩ <;> simp only [possibleErrors]
  case fadd | fsub | fmul =>
    exact raisesOnly_bind (raisesOnly_reducedOperand (by decide) s _ _) fun _ _ =>
      raisesOnly_bind (raisesOnly_reducedOperand (by decide) s _ _) fun _ _ => raisesOnly_pure _
  case fsqr => exact raisesOnly_bind (raisesOnly_reducedOperand (by decide) s _ _) fun _ _ => raisesOnly_pure _
  case finv =>
    exact raisesOnly_bind (raisesOnly_reducedOperand (by decide) s _ _) fun _ _ =>
      raisesOnly_bind (raisesOnly_finv (by decide) _ _) fun _ _ => raisesOnly_pure _
  case fred | pchk | pldg => exact raisesOnly_pure _
  case padd =>
    exact raisesOnly_bind (raisesOnly_pointOperand (by decide) s _) fun _ _ =>
      raisesOnly_bind (raisesOnly_pointOperand (by decide) s _) fun _ _ =>
        raisesOnly_bind (raisesOnly_padd (by decide) _ _) fun _ _ => raisesOnly_pure _
  case pdbl =>
    refine raisesOnly_bind (raisesOnly_pointOperand (by decide) s _) fun pt hpt => ?_
    obtain ⟨c, hc⟩ := exists_onCurveWith_of_pointOperand hpt
    obtain ⟨r, hr, -⟩ := pdbl_onCurve hc
    exact raisesOnly_bind (raisesOnly_of_ok hr) fun _ _ => raisesOnly_pure _
  case pmul =>
    refine raisesOnly_bind (raisesOnly_reducedOperand (by decide) s _ _) fun k _ =>
      raisesOnly_bind (raisesOnly_pointOperand (by decide) s _) fun pt hpt => ?_
    obtain ⟨c, hc⟩ := exists_onCurveWith_of_pointOperand hpt
    obtain ⟨r, hr, -⟩ := pmul_onCurve k hc
    exact raisesOnly_bind (raisesOnly_of_ok hr) fun _ _ => raisesOnly_pure _
  case sigchk | keychk => exact raisesOnly_bind (raisesOnly_require (by decide) _) fun _ _ => raisesOnly_pure _
  case verify a b c e =>
    refine raisesOnly_bind (raisesOnly_require (by decide) _) fun _ hsig =>
      raisesOnly_bind (raisesOnly_require (by decide) _) fun _ hkey => ?_
    obtain ⟨ok, hok⟩ := exists_ecdsaCheck_eq_ok (fValue s b) (sigOk_iff.1 (eq_true_of_require_eq_ok hsig))
      (onCurveWith_of_validKey (keyOk_iff.1 (eq_true_of_require_eq_ok hkey)))
    exact raisesOnly_bind (raisesOnly_of_ok hok) fun _ _ => raisesOnly_pure _

/-! ### The obligations -/

/-- Settles O31: every meaning ends in a completion, and one that sets ERR is the error entry. -/
theorem errorChangesOnlyStatus : Obligations.ErrorChangesOnlyStatus := by
  intro i s t e h herr
  obtain ⟨r, hr, -⟩ := exec_eq_finish i s
  obtain rfl : finish r s = t := Host.Outcome.next.inj (hr.symm.trans h)
  obtain rfl := finish_err_eq_some_iff.1 herr
  exact ⟨finish_error e s, by rw [irq_eq, finish_error, failed, Bool.and_true]⟩

/-- Settles O32: ERR is the error of the command's result, and that is one of its row. -/
theorem errorsOfEachCommand : Obligations.ErrorsOfEachCommand := by
  intro i s t e hwf h herr
  obtain ⟨r, hr, honly⟩ := exec_raisesOnly hwf s
  obtain rfl : finish r s = t := Host.Outcome.next.inj (hr.symm.trans h)
  exact honly e (finish_err_eq_some_iff.1 herr)

/-- Settles O33: on equal register files the command has one result, and a completion writes it the same way. -/
theorem outcomeDependsOnlyOnRegisters : Obligations.OutcomeDependsOnlyOnRegisters := by
  intro i s s' hf hp
  obtain ⟨r, hr, hr'⟩ := exec_result_of_registers hf hp i
  exact ⟨_, _, hr, hr', finish_of_registers hf hp r⟩

/-- Settles O34. -/
theorem errorCodes : Obligations.ErrorCodes := ⟨rfl, rfl, rfl, rfl, rfl, rfl, rfl⟩

end Sys2Proof.Proofs
end

section
/-! SUPPORT. Reset and the Idle machine (`70_reset_and_hazards.md` R260, R261, R267): what the window reads in every
state, and what it reads at reset. -/

namespace Sys2Proof.Proofs

open Sys2Proof.Machine Sys2Proof.Laws

/-! ### The registers and the window at reset (R261) -/

theorem reset_f_getElem (i : Fin 8) : State.reset.f[i.val] = 0#256 := Vector.getElem_replicate _

theorem reset_p_getElem (i : Fin 4) : State.reset.p[i.val] = Point.identity := Vector.getElem_replicate _

/-- R57: the ROM is hard-wired, so every state reads word `j` of the `k`-th constant there. -/
theorem wordAt_locate_rom {k : Nat} (hk : k < 5) (j : Fin 8) (s : State) :
    wordAt s (locate (0x400 + 0x20 * k + 4 * j)) = (romConstant k).extractLsb' (224 - 32 * j) 32 := by
  rw [locate_rom hk j.isLt, wordAt, wordOf]

/-! ### The obligations -/

/-- Settles O8: both moves are the Engine's, which has nothing to complete while Idle. -/
theorem idleMachineWaits : Obligations.IdleMachineWaits := by
  refine fun s hb => ⟨fun h => ?_, fun ts h => ?_⟩
  · exact (step_none h).trans (engineTurn_idle hb)
  · exact (step_engine h).trans (engineTurn_idle (s := withTurns ts s) hb)

/-- Settles O47: the Reset move does not ask whether the machine is Busy. -/
theorem resetTakesEverythingToItsResetValue : Obligations.ResetTakesEverythingToItsResetValue :=
  fun _ _ h => step_reset h

/-- Settles O48: the register files, then the control words and `irq`, then the five constants of the ROM. -/
theorem resetValues : Obligations.ResetValues := by
  refine ⟨reset_f_getElem, reset_p_getElem, rfl, rfl, rfl, rfl, rfl, ?_⟩
  simp only [List.forall_mem_cons]
  exact ⟨fun j => wordAt_locate_rom (k := 0) (by decide) j _, fun j => wordAt_locate_rom (k := 1) (by decide) j _,
    fun j => wordAt_locate_rom (k := 2) (by decide) j _, fun j => wordAt_locate_rom (k := 3) (by decide) j _,
    fun j => wordAt_locate_rom (k := 4) (by decide) j _, List.forall_mem_nil _⟩

end Sys2Proof.Proofs
end
